-- ==== Sys2Proof/Word.lean ====
section
/-! DEFINITION. The two sizes of datum of the block: the byte and the 32-bit word (00_scope.md R4, 40_logic.md R80). -/

namespace Sys2Proof

/-- A byte, 8 bits; bit 7 is its most significant bit (00_scope.md R4 and section 4.1). -/
abbrev Byte := BitVec 8

/-- A word, 32 bits, unsigned; bit 0 is its least significant bit (00_scope.md R4, 40_logic.md R80).
Addition `x + y` on words is modulo 2^32 (40_logic.md R81). PRESUMED: the bit numbering (log 3). -/
abbrev Word := BitVec 32

/-- One 512-bit block: sixteen words (10_state.md R18). -/
abbrev Block := Vector Word 16

/-- Eight words: the content of the hash state `H[0..7]`, or of the working registers `a .. h`
in that order (10_state.md R11, R12). -/
abbrev Words8 := Vector Word 8

end Sys2Proof
end

