-- ==== Sys2Proof/Config.lean ====
section
/-! DEFINITION. The two parameters of the block (00_scope.md R5, R6). Every operation that depends on one takes a
`Config`; `exec` uses the values of this hardware, `Config.chip` in Machine/Operands.lean. -/

namespace Sys2Proof

/-- What an implementation fixes (00_scope.md R5, R6). Not state: no operation writes it (00_scope.md section 6). -/
structure Config where
  /-- ALIGNED_SKIP: what the Padder does with a message whose bit-length is a multiple of 512 (R5). -/
  alignedSkip : Bool
  /-- MSG_MAX_BYTES: the capacity of the message buffer, left open with `0 ≤ MSG_MAX_BYTES ≤ 2^61 − 1` (R6). -/
  msgMaxBytes : Nat
deriving DecidableEq, Repr

/-- The constraint R6 puts on the open parameter. -/
abbrev Config.Ok (cfg : Config) : Prop := cfg.msgMaxBytes ≤ 2 ^ 61 - 1

end Sys2Proof
end

