-- ==== Sys2Proof/Syntax.lean ====
section
/-! DEFINITION. The operation set of 30_encoding.md R69, one constructor per row of spec/opcode_table.json, and what
the host puts on the command port for one operation. -/

namespace Sys2Proof

/-- The twenty operations and two pseudo-operations (30_encoding.md R69). Operands stand in the order of the
operation's contract: the amount first, then the words (30_encoding.md R73). -/
inductive Instr where
  /-- `ADD32(x, y)`, 40_logic.md R81. -/
  | add32 (x y : Word)
  /-- `ROTR(n, x)`, 40_logic.md R83. -/
  | rotr (n : Nat) (x : Word)
  /-- `SHR(n, x)`, 40_logic.md R84. -/
  | shr (n : Nat) (x : Word)
  /-- `ssigma0(x)`, 40_logic.md R85. -/
  | ssigma0 (x : Word)
  /-- `ssigma1(x)`, 40_logic.md R86. -/
  | ssigma1 (x : Word)
  /-- `lsigma0(x)`, 40_logic.md R87. -/
  | lsigma0 (x : Word)
  /-- `lsigma1(x)`, 40_logic.md R88. -/
  | lsigma1 (x : Word)
  /-- `Ch(x, y, z)`, 40_logic.md R89. -/
  | ch (x y z : Word)
  /-- `Maj(x, y, z)`, 40_logic.md R90. -/
  | maj (x y z : Word)
  /-- `PAD`, 41_padder.md R106. -/
  | pad
  /-- `PARSE`, 42_parser.md R127. -/
  | parse
  /-- `INIT`, 43_compressor.md R136. -/
  | init
  /-- `SCHED`, 43_compressor.md R137. -/
  | sched
  /-- `LOAD`, 43_compressor.md R138. -/
  | load
  /-- `ROUND`, 43_compressor.md R139. -/
  | round
  /-- `FOLD`, 43_compressor.md R141. -/
  | fold
  /-- `FINAL`, 43_compressor.md R144. -/
  | final
  /-- `COMPRESS`, 43_compressor.md R142. -/
  | compress
  /-- `CLEAR`, 44_top.md R171. -/
  | clear
  /-- `LOADMSG m`, 44_top.md R170. -/
  | loadmsg (m : List Byte)
  /-- `LOADPB p`, 44_top.md R179. -/
  | loadpb (p : List Byte)
  /-- `HASH m`, 44_top.md R172. -/
  | hash (m : List Byte)
deriving DecidableEq, Repr

/-- One operation as the host presents it: the 8-bit identifier, and beside it the operands it may need. No operand
is encoded in the identifier (30_encoding.md R60), so each stands on an input of its own; an operation ignores the
inputs it does not take. DESIGN CHOICE: the record (log 7). -/
structure Command where
  /-- The operation identifier (30_encoding.md R60). -/
  opid : Byte
  /-- The amount of `ROTR` and `SHR` (30_encoding.md R67). A number, so that one outside `0 .. 31` can be presented
  and refused (30_encoding.md R71). -/
  amount : Nat
  /-- The first word operand. -/
  x : Word
  /-- The second word operand. -/
  y : Word
  /-- The third word operand. -/
  z : Word
  /-- The byte-sequence operand (10_state.md R22, "the message input"). -/
  bytes : List Byte
deriving DecidableEq, Repr

end Sys2Proof
end

