-- ==== Sys2Proof/Machine/Operands.lean ====
section
/-! DEFINITION. The values of the block's parameters for this hardware, and the operand forms that have a domain
(30_encoding.md R67, R71): an amount, a message, a message with its bit-length. A word operand has none: every 32-bit
word is in the domain. -/

namespace Sys2Proof

/-- The parameters of this hardware. `alignedSkip = false` is the value the spec takes (R5, 92 D1; log 4).
DESIGN CHOICE: `msgMaxBytes` is taken as unbounded under the premise `8 × MLEN < 2^64`, which R6 allows: the
largest value R6 admits, `2^61 − 1` (log 5). -/
def Config.chip : Config := { alignedSkip := false, msgMaxBytes := 2 ^ 61 - 1 }

end Sys2Proof

namespace Sys2Proof.Machine

/-- An amount of ROTR or SHR is a number of 5 bits, `0 ≤ n ≤ 31` (30_encoding.md R67). -/
abbrev AmountOk (n : Nat) : Prop := n ≤ 31

/-- A message is in the input domain: at most MSG_MAX_BYTES bytes, and its bit-length fits the 64-bit counter
(00_scope.md R6). -/
abbrev MessageOk (cfg : Config) (m : List Byte) : Prop :=
  m.length ≤ cfg.msgMaxBytes ∧ 8 * m.length < 2 ^ 64

/-- A bit-length agrees with the message it is paired with: a multiple of 8, and 8 times the byte count
(00_scope.md R7, 41_padder.md R109). -/
abbrev BitLengthOk (m : List Byte) (bitLength : Nat) : Prop :=
  bitLength % 8 = 0 ∧ bitLength = 8 * m.length

end Sys2Proof.Machine
end

