-- ==== Sys2Proof/Decode.lean ====
section
/-! DEFINITION. The operation map of 30_encoding.md R69, read in both directions, and the word of a row of
spec/opcode_table.json as a command. -/

namespace Sys2Proof

/-- Why a command spells no operation. -/
inductive DecodeError where
  /-- The identifier is not in the table of 30_encoding.md R69 (R70). -/
  | unknownOpid (opid : Byte)
deriving DecidableEq, Repr

/-- The operation a command spells, by the operation map (30_encoding.md R69); an identifier outside the map is
rejected by name and is never a no-operation (30_encoding.md R70). Total on every command. -/
def decode (c : Command) : Except DecodeError Instr :=
  match c.opid.toNat with
  | 0x00 => .ok (.add32 c.x c.y)
  | 0x01 => .ok (.rotr c.amount c.x)
  | 0x02 => .ok (.shr c.amount c.x)
  | 0x03 => .ok (.ssigma0 c.x)
  | 0x04 => .ok (.ssigma1 c.x)
  | 0x05 => .ok (.lsigma0 c.x)
  | 0x06 => .ok (.lsigma1 c.x)
  | 0x07 => .ok (.ch c.x c.y c.z)
  | 0x08 => .ok (.maj c.x c.y c.z)
  | 0x10 => .ok .pad
  | 0x20 => .ok .parse
  | 0x30 => .ok .init
  | 0x31 => .ok .sched
  | 0x32 => .ok .load
  | 0x33 => .ok .round
  | 0x34 => .ok .fold
  | 0x35 => .ok .final
  | 0x3f => .ok .compress
  | 0x40 => .ok .clear
  | 0x41 => .ok (.loadmsg c.bytes)
  | 0x42 => .ok (.loadpb c.bytes)
  | 0x4f => .ok (.hash c.bytes)
  | _ => .error (.unknownOpid c.opid)

/-- A command with an identifier alone: every operand input at zero, the byte sequence empty. -/
def opidCommand (opid : Byte) : Command :=
  { opid := opid, amount := 0, x := 0, y := 0, z := 0, bytes := [] }

/-- The command that spells an operation (30_encoding.md R69): its identifier, its operands on their inputs, the
other inputs at zero. -/
def encode (i : Instr) : Command :=
  match i with
  | .add32 x y => { opidCommand 0x00 with x := x, y := y }
  | .rotr n x => { opidCommand 0x01 with amount := n, x := x }
  | .shr n x => { opidCommand 0x02 with amount := n, x := x }
  | .ssigma0 x => { opidCommand 0x03 with x := x }
  | .ssigma1 x => { opidCommand 0x04 with x := x }
  | .lsigma0 x => { opidCommand 0x05 with x := x }
  | .lsigma1 x => { opidCommand 0x06 with x := x }
  | .ch x y z => { opidCommand 0x07 with x := x, y := y, z := z }
  | .maj x y z => { opidCommand 0x08 with x := x, y := y, z := z }
  | .pad => opidCommand 0x10
  | .parse => opidCommand 0x20
  | .init => opidCommand 0x30
  | .sched => opidCommand 0x31
  | .load => opidCommand 0x32
  | .round => opidCommand 0x33
  | .fold => opidCommand 0x34
  | .final => opidCommand 0x35
  | .compress => opidCommand 0x3f
  | .clear => opidCommand 0x40
  | .loadmsg m => { opidCommand 0x41 with bytes := m }
  | .loadpb p => { opidCommand 0x42 with bytes := p }
  | .hash m => { opidCommand 0x4f with bytes := m }

/-- The command whose identifier is the table word `w` of `nbits` bits: the bits above `nbits` are zero, and every
operand is zero or empty (the table gives operands no bits). -/
def tableCommand (nbits w : Nat) : Command :=
  opidCommand (BitVec.ofNat 8 (w % 2 ^ nbits))

/-- What the decoder reads from a row's word of spec/opcode_table.json. An identifier is one byte and there is no
longer form (30_encoding.md R61), so a word that does not fit in one byte spells nothing. -/
def decodeTableWord (nbits w : Nat) : Option Instr :=
  if w % 2 ^ nbits < 2 ^ 8 then (decode (tableCommand nbits w)).toOption else none

end Sys2Proof
end

