-- ==== Sys2Proof/Machine/State.lean ====
section
/-! DEFINITION. The state of one instance of the block (10_state.md R10), its reset value (R26), and the reasons an
operation can stop. -/

namespace Sys2Proof.Machine

/-- The register STAGE: the position of the block in the pipeline (10_state.md R20). -/
inductive Stage where
  /-- `S_EMPTY`: no message. -/
  | empty
  /-- `S_MSG`: message loaded, not padded. -/
  | msg
  /-- `S_PADDED`: PB complete. -/
  | padded
  /-- `S_PARSED`: BLK complete, the compressor may run. -/
  | parsed
  /-- `S_FAILED`: PARSE raised InvalidInputLength. -/
  | failed
deriving DecidableEq, Repr

/-- The register PHASE: the state of the compressor's state machine (10_state.md R19). -/
inductive Phase where
  | uninitialized
  | initialized
  /-- `ProcessingBlock(i)`. -/
  | processing (i : Nat)
  | finalized
deriving DecidableEq, Repr

/-- The register US: the next micro-operation of the current block (10_state.md R19). -/
inductive MicroStep where
  | sched
  | load
  /-- `U_ROUND(t)`, `0 ≤ t ≤ 63`. -/
  | round (t : Fin 64)
  | fold
deriving DecidableEq, Repr

/-- A register file of `n` words in which each register holds a word or no value: `none` is the spec's NOVAL
(10_state.md R25, 00_scope.md section 4.3). It is the spec's own state, which FOLD and CLEAR write (log 1). -/
abbrev Cells (n : Nat) := Vector (Option Word) n

/-- All the state of one instance (10_state.md R10), and the model's own two fields `fnOut` and `port`. -/
structure State where
  /-- MSG, the message buffer (R16). -/
  msg : List Byte
  /-- MLEN, its length in bytes (R16). -/
  mlen : Nat
  /-- BITLEN, its length in bits (R16). -/
  bitlen : BitVec 64
  /-- PB, the padded buffer (R17). -/
  pb : List Byte
  /-- PLEN, its length in bytes (R17). -/
  plen : Nat
  /-- BLK, the block list (R18). -/
  blk : List Block
  /-- NBLK, the number of its blocks (R18). -/
  nblk : Nat
  /-- W[0..63], the message schedule (R13). -/
  W : Cells 64
  /-- H[0..7], the hash state (R11). -/
  H : Cells 8
  /-- R[0..7], the working registers a, b, c, d, e, f, g, h in this order (R12). -/
  R : Cells 8
  /-- PHASE (R19). -/
  phase : Phase
  /-- US (R19). -/
  us : MicroStep
  /-- STAGE (R20). -/
  stage : Stage
  /-- ERR, the sticky flag of InvalidInputLength (R21). -/
  err : Bool
  /-- The model's own: the word most recently given by an operation of format FN. No operation reads it.
  DESIGN CHOICE (log 8). -/
  fnOut : Option Word
  /-- The model's own: the operations the host has yet to issue on the command port, oldest first.
  DESIGN CHOICE (log 6). -/
  port : List Command
deriving DecidableEq, Repr

/-- The state right after reset (10_state.md R26). The two fields of the model's own are empty (log 6, log 8). -/
def State.reset : State where
  msg := []
  mlen := 0
  bitlen := 0
  pb := []
  plen := 0
  blk := []
  nblk := 0
  W := Vector.replicate 64 none
  H := Vector.replicate 8 none
  R := Vector.replicate 8 none
  phase := .uninitialized
  us := .sched
  stage := .empty
  err := false
  fnOut := none
  port := []

/-- The block's one error kind (60_exceptions.md R190, R192). -/
inductive Fault where
  /-- The padded buffer's length is not a multiple of 64 bytes. Raised by the function `parse`, with the offending
  length. PARSE takes it as the exception entry of R193, a next state, so no step ends in this fault. Safe. -/
  | invalidInputLength (plen : Nat)
deriving DecidableEq, Repr

/-- Uses of the block outside its documented domain: the operation has no step and no state changes
(60_exceptions.md R199). Each is safe: the spec refuses the same use. -/
inductive Refusal where
  /-- An arm of `exec` that has no meaning yet. Raised by no arm now. Safe. -/
  | notModelled (mnemonic : String)
  /-- The identifier is not in the operation map (30_encoding.md R70). Raised by `step`. Safe. -/
  | unknownOpid (opid : Byte)
  /-- The operation was issued in a state the table of 44_top.md R177 does not list. Raised by every operation of
  format CMD or UOP but CLEAR and HASH. Safe. -/
  | notAdmitted (mnemonic : String)
  /-- An amount of 32 or more (30_encoding.md R71). Raised by ROTR and SHR. Safe. -/
  | amountOutOfRange (n : Nat)
  /-- A message longer than MSG_MAX_BYTES or of `2^61` bytes or more (00_scope.md R6). Raised by LOADMSG, HASH and
  the function `pad`. Safe. -/
  | messageTooLong (bytes : Nat)
  /-- A bit-length that is not a multiple of 8 or not 8 times the byte count (30_encoding.md R71, 41_padder.md R109).
  Raised by the function `pad`; by PAD only in a state no run reaches. Safe. -/
  | bitLengthOutsideDomain (bits bytes : Nat)
  /-- A read of a cell that holds NOVAL, which the spec refuses and gives no value for (10_state.md R25, R26,
  60_exceptions.md R199). Raised by LOAD, ROUND and FOLD, by COMPRESS through its LOAD, and only in a state no run
  reaches. Safe. -/
  | readNoval (file : String)
  /-- A read beyond a buffer's end, where a length register says more than the buffer holds (20_memory.md R53). Raised
  by PAD, PARSE and SCHED, by COMPRESS through its SCHED, and only in a state no run reaches. Safe. -/
  | outOfRange (buffer : String)
deriving DecidableEq, Repr

end Sys2Proof.Machine
end

