-- ==== Sys2Proof/Machine/Flags.lean ====
section
/-! DEFINITION. The block's one flag, ERR (10_state.md R21). There is no carry, overflow, zero or sign flag and no
condition code: no word operation computes a flag (40_logic.md R80, R81). -/

namespace Sys2Proof.Machine

/-- Set ERR, as raising InvalidInputLength does (10_state.md R21, 60_exceptions.md R193). It is sticky: only CLEAR,
HASH and reset clear it, by taking the whole state back to its reset value (60_exceptions.md R194). -/
def State.setErr (s : State) : State := { s with err := true }

end Sys2Proof.Machine
end

