-- ==== Sys2Proof/Machine/Ops.lean ====
section
/-! DEFINITION. The named operations the meanings are written with: byte order, buffers, register files, the control
registers, taking the block's one exception, sequencing, the command port. -/

namespace Sys2Proof.Machine

/-! ## Bytes and numbers -/

/-- `from_be(s)`: the unsigned number whose bytes are `s`, most significant first (00_scope.md section 4.2). -/
def fromBe (s : List Byte) : Nat := s.foldl (fun acc b => acc * 256 + b.toNat) 0

/-- The `n` bytes of `v`, most significant first: byte `q` is `floor(v / 256^(n−1−q)) mod 256` (20_memory.md R43).
`be32` and `be64` of 00_scope.md section 4.2 are `beBytes 4` and `beBytes 8`. -/
def beBytes (n v : Nat) : List Byte :=
  (List.range n).map fun q => BitVec.ofNat 8 (v / 256 ^ (n - 1 - q))

/-- `MemRead(buf+k, n)` (20_memory.md R42): the big-endian number made of the `n` bytes from offset `k`. Its domain
is `k + n ≤ |buf|`; no operation reads outside it (20_memory.md R53). -/
def memRead (buf : List Byte) (k n : Nat) : Nat := fromBe ((buf.drop k).take n)

/-- `MemWrite(buf+k, n, v)` (20_memory.md R43): the buffer with the `n` bytes from offset `k` replaced by those of
`v`. Its domain is `k + n ≤ |buf|`. -/
def memWrite (buf : List Byte) (k n v : Nat) : List Byte :=
  buf.take k ++ beBytes n v ++ buf.drop (k + n)

/-- The first `n` bytes of a buffer, when it has that many (`buf[0 .. n)`). -/
def prefixBytes (buf : List Byte) (n : Nat) : Option (List Byte) :=
  if n ≤ buf.length then some (buf.take n) else none

/-! ## Register files -/

/-- Every register of a file holds a word. -/
def AllHold {n : Nat} (v : Cells n) : Prop := ∀ j : Fin n, (v[j]).isSome = true

/-- No register of a file holds a word: all are NOVAL. -/
def NoneHolds {n : Nat} (v : Cells n) : Prop := ∀ j : Fin n, (v[j]).isNone = true

/-- A file with these words in its registers. -/
def cellsOf {n : Nat} (v : Vector Word n) : Cells n := v.map some

/-- A file in which no register holds a value (NOVAL, 10_state.md R25). -/
def noval (n : Nat) : Cells n := Vector.replicate n none

/-- Read a whole file: its words, when every register holds one (10_state.md R25). -/
def readCells {n : Nat} (v : Cells n) : Option (Vector Word n) :=
  if h : ∀ j : Fin n, (v[j]).isSome = true then some (Vector.ofFn fun j => (v[j]).get (h j)) else none

/-- `MSG <- m; MLEN <- |m|; BITLEN <- 8 × |m|` (44_top.md R170). -/
def State.storeMsg (s : State) (m : List Byte) : State :=
  { s with msg := m, mlen := m.length, bitlen := BitVec.ofNat 64 (8 * m.length) }

/-- `PB <- p; PLEN <- |p|` (41_padder.md R106, 44_top.md R179). -/
def State.storePb (s : State) (p : List Byte) : State := { s with pb := p, plen := p.length }

/-- `BLK <- bs; NBLK <- |bs|` (42_parser.md R127). -/
def State.storeBlk (s : State) (bs : List Block) : State := { s with blk := bs, nblk := bs.length }

/-- Write all of W. -/
def State.writeW (s : State) (w : Vector Word 64) : State := { s with W := cellsOf w }

/-- Write all of H. -/
def State.writeH (s : State) (h : Words8) : State := { s with H := cellsOf h }

/-- Write all of a .. h, simultaneously. -/
def State.writeR (s : State) (r : Words8) : State := { s with R := cellsOf r }

/-- End the lifetime of W and a .. h: they hold NOVAL (10_state.md R28, 43_compressor.md R141). -/
def State.endBlock (s : State) : State := { s with W := noval 64, R := noval 8 }

/-- Read `BLK[i]`, for `i < NBLK` (20_memory.md R40). -/
def State.readBlk (s : State) (i : Nat) : Option Block := if i < s.nblk then s.blk[i]? else none

/-- `STAGE <- g` (10_state.md R20). -/
def State.setStage (s : State) (g : Stage) : State := { s with stage := g }

/-- `PHASE <- p` (10_state.md R19). -/
def State.setPhase (s : State) (p : Phase) : State := { s with phase := p }

/-- `US <- u` (10_state.md R19). -/
def State.setUs (s : State) (u : MicroStep) : State := { s with us := u }

/-- Present the result of an operation of format FN. DESIGN CHOICE: the model's own output (log 8). -/
def State.setFnOut (s : State) (r : Word) : State := { s with fnOut := some r }

/-- Every piece of state at its reset value (10_state.md R27, 44_top.md R171). The operations the host has yet to
issue are not the block's state, and stay. DESIGN CHOICE: `port` stays, `fnOut` is emptied (log 12). -/
def State.clear (s : State) : State := { State.reset with port := s.port }

/-! ## The exception -/

/-- Taking InvalidInputLength: `ERR <- 1; STAGE <- S_FAILED`, nothing else; the offending length stays in PLEN
(60_exceptions.md R193, R190). There is no handler, no saved state and no return from the exception: only CLEAR, HASH
and reset leave S_FAILED (60_exceptions.md R195). -/
def State.raiseInvalidInputLength (s : State) : State := s.setErr.setStage .failed

/-! ## Outcomes -/

/-- The outcome of an operation in this model. -/
abbrev Result := Host.Outcome State Fault Refusal

/-- One operation after another, with nothing between them (20_memory.md R49): the second runs from the state the
first leaves, and does not run when the first has none. -/
def andThen (r : Result) (f : State → Result) : Result :=
  match r with
  | .next s => f s
  | .fault e => .fault e
  | .refused e => .refused e

/-- An operation performed `n` times. -/
def repeatOp (f : State → Result) : Nat → State → Result
  | 0, s => .next s
  | n + 1, s => andThen (f s) (repeatOp f n)

/-- An operation of format FN gives its word and touches nothing else (40_logic.md R91; log 8). -/
def giveWord (r : Word) (s : State) : Result := .next (s.setFnOut r)

/-! ## Ports -/

/-- The 32 bytes of eight words, word 0 first, each big-endian (30_encoding.md R66). -/
def digestBytes (h : Words8) : List Byte := h.toList.flatMap fun x => beBytes 4 x.toNat

/-- The DIGEST port (10_state.md R23): the digest in Finalized; `none`, the spec's NOVAL, in every other phase. -/
def State.digestPort (s : State) : Option (List Byte) :=
  match s.phase with
  | .finalized => (readCells s.H).map digestBytes
  | .uninitialized => none
  | .initialized => none
  | .processing _ => none

/-- The next operation the host issues, and the state with that operation off the port (log 6). -/
def State.takeCommand (s : State) : Option (Command × State) :=
  match s.port with
  | [] => none
  | c :: rest => some (c, { s with port := rest })

/-- With no operation issued the block does nothing (10_state.md R26, 70_reset_and_hazards.md R210). -/
def idle (s : State) : Result := .next s

/-- The refusal a rejected command ends in (30_encoding.md R70). -/
def refusalOf (e : DecodeError) : Refusal :=
  match e with
  | .unknownOpid opid => .unknownOpid opid

end Sys2Proof.Machine
end

