-- ==== Sys2Proof/Machine/Logic.lean ====
section
/-! DEFINITION. The logic unit (40_logic.md): nine stateless functions on words, and their operations. -/

namespace Sys2Proof.Machine

/-- `ADD32(x, y) = (x + y) mod 2^32`; the carry is discarded (40_logic.md R81). -/
def add32 (x y : Word) : Word := x + y

/-- `ROTR(n, x)`, `0 ≤ n ≤ 31`: bit `k` of the result is bit `(k + n) mod 32` of `x` (40_logic.md R83).
PRESUMED: "right" is toward bit 0 (log 3). -/
def rotr (n : Nat) (x : Word) : Word := x.rotateRight n

/-- `SHR(n, x) = floor(x / 2^n)`, `0 ≤ n ≤ 31` (40_logic.md R84). -/
def shr (n : Nat) (x : Word) : Word := x >>> n

/-- `ssigma0` (40_logic.md R85). -/
def ssigma0 (x : Word) : Word := rotr 7 x ^^^ rotr 18 x ^^^ shr 3 x

/-- `ssigma1` (40_logic.md R86). -/
def ssigma1 (x : Word) : Word := rotr 17 x ^^^ rotr 19 x ^^^ shr 10 x

/-- `lsigma0` (40_logic.md R87). -/
def lsigma0 (x : Word) : Word := rotr 2 x ^^^ rotr 13 x ^^^ rotr 22 x

/-- `lsigma1` (40_logic.md R88). -/
def lsigma1 (x : Word) : Word := rotr 6 x ^^^ rotr 11 x ^^^ rotr 25 x

/-- `Ch`: bits of `y` where `x` is 1, bits of `z` where `x` is 0 (40_logic.md R89). -/
def ch (x y z : Word) : Word := (x &&& y) ^^^ (~~~x &&& z)

/-- `Maj`: the majority of three bits at each position (40_logic.md R90). -/
def maj (x y z : Word) : Word := (x &&& y) ^^^ (x &&& z) ^^^ (y &&& z)

/-- ADD32, 40_logic.md R81. -/
def execAdd32 (x y : Word) (s : State) : Result := giveWord (add32 x y) s

/-- ROTR, 40_logic.md R83; an amount of 32 or more is refused (30_encoding.md R71). -/
def execRotr (n : Nat) (x : Word) (s : State) : Result :=
  if AmountOk n then giveWord (rotr n x) s else .refused (.amountOutOfRange n)

/-- SHR, 40_logic.md R84; an amount of 32 or more is refused (30_encoding.md R71). -/
def execShr (n : Nat) (x : Word) (s : State) : Result :=
  if AmountOk n then giveWord (shr n x) s else .refused (.amountOutOfRange n)

/-- ssigma0, 40_logic.md R85. -/
def execSsigma0 (x : Word) (s : State) : Result := giveWord (ssigma0 x) s

/-- ssigma1, 40_logic.md R86. -/
def execSsigma1 (x : Word) (s : State) : Result := giveWord (ssigma1 x) s

/-- lsigma0, 40_logic.md R87. -/
def execLsigma0 (x : Word) (s : State) : Result := giveWord (lsigma0 x) s

/-- lsigma1, 40_logic.md R88. -/
def execLsigma1 (x : Word) (s : State) : Result := giveWord (lsigma1 x) s

/-- Ch, 40_logic.md R89. -/
def execCh (x y z : Word) (s : State) : Result := giveWord (ch x y z) s

/-- Maj, 40_logic.md R90. -/
def execMaj (x y z : Word) (s : State) : Result := giveWord (maj x y z) s

end Sys2Proof.Machine
end

