-- ==== Sys2Proof/Machine/Tables.lean ====
section
/-! DEFINITION. The two read-only tables, which are not state: the round constants K (10_state.md R14) and the initial
hash value H0 (10_state.md R15). -/

namespace Sys2Proof.Machine

/-- The table of 10_state.md R14 as it is printed: row `r` holds the words `K[4r] .. K[4r+3]`, from left to right. -/
def kRows : Vector (BitVec 128) 16 :=
  #v[0x428a2f98_71374491_b5c0fbcf_e9b5dba5,
     0x3956c25b_59f111f1_923f82a4_ab1c5ed5,
     0xd807aa98_12835b01_243185be_550c7dc3,
     0x72be5d74_80deb1fe_9bdc06a7_c19bf174,
     0xe49b69c1_efbe4786_0fc19dc6_240ca1cc,
     0x2de92c6f_4a7484aa_5cb0a9dc_76f988da,
     0x983e5152_a831c66d_b00327c8_bf597fc7,
     0xc6e00bf3_d5a79147_06ca6351_14292967,
     0x27b70a85_2e1b2138_4d2c6dfc_53380d13,
     0x650a7354_766a0abb_81c2c92e_92722c85,
     0xa2bfe8a1_a81a664b_c24b8b70_c76c51a3,
     0xd192e819_d6990624_f40e3585_106aa070,
     0x19a4c116_1e376c08_2748774c_34b0bcb5,
     0x391c0cb3_4ed8aa4a_5b9cca4f_682e6ff3,
     0x748f82ee_78a5636f_84c87814_8cc70208,
     0x90befffa_a4506ceb_bef9a3f7_c67178f2]

/-- `K[0..63]`, the first 32 bits of the fractional parts of the cube roots of the first 64 primes (10_state.md R14):
word `t` is the one at column `t mod 4` of row `t / 4` of the printed table.
DEDUCED by the spec from that definition (92 D19; log 18). -/
def K : Vector Word 64 :=
  Vector.ofFn fun t => kRows[t.val / 4].extractLsb' (32 * (3 - t.val % 4)) 32

/-- `H0[0..7]`, the first 32 bits of the fractional parts of the square roots of the first eight primes
(10_state.md R15). PRESUMED: the spec takes the values from general knowledge (93 G1, 92 D18; log 2). -/
def H0 : Words8 :=
  #v[0x6a09e667, 0xbb67ae85, 0x3c6ef372, 0xa54ff53a, 0x510e527f, 0x9b05688c, 0x1f83d9ab, 0x5be0cd19]

end Sys2Proof.Machine
end

