-- ==== Sys2Proof/Machine/Compressor.lean ====
section
/-! DEFINITION. The Compressor (43_compressor.md): the functions of the per-block transition, and INIT, SCHED, LOAD,
ROUND, FOLD, COMPRESS, FINAL. -/

namespace Sys2Proof.Machine

/-- Entry `t = 16 + n` of the schedule from the entries before it: it reads the entries `t−2`, `t−7`, `t−15` and `t−16`
(43_compressor.md R137). -/
def scheduleNext {n : Nat} (w : Vector Word (16 + n)) : Word :=
  ssigma1 w[14 + n] + w[9 + n] + ssigma0 w[1 + n] + w[n]

/-- The first `16 + n` entries of the message schedule of a block, built in ascending order (43_compressor.md R137). -/
def scheduleUpTo (b : Block) : (n : Nat) → Vector Word (16 + n)
  | 0 => b
  | n + 1 => (scheduleUpTo b n).push (scheduleNext (scheduleUpTo b n))

/-- `W[0..63]` of a block (43_compressor.md R137). -/
def schedule (b : Block) : Vector Word 64 := scheduleUpTo b 48

/-- `T1` of a round from the registers before it, the round constant and the schedule word (43_compressor.md R139). -/
def roundT1 (k w : Word) (r : Words8) : Word := r[7] + lsigma1 r[4] + ch r[4] r[5] r[6] + k + w

/-- `T2` of a round from the registers before it (43_compressor.md R139). -/
def roundT2 (r : Words8) : Word := lsigma0 r[0] + maj r[0] r[1] r[2]

/-- The working registers after a round: all eight are written from the values before it (43_compressor.md R139,
R140). -/
def round (k w : Word) (r : Words8) : Words8 :=
  #v[roundT1 k w r + roundT2 r, r[0], r[1], r[2], r[3] + roundT1 k w r, r[4], r[5], r[6]]

/-- The element-wise sum mod 2^32 of the fold (43_compressor.md R141). -/
def foldWords (h r : Words8) : Words8 := Vector.zipWith (· + ·) h r

/-- The working registers after rounds `0 .. t−1` (43_compressor.md R139, R146). -/
def roundsUpTo (w : Vector Word 64) (r : Words8) : (t : Nat) → t ≤ 64 → Words8
  | 0, _ => r
  | t + 1, h => round K[t] w[t] (roundsUpTo w r t (by omega))

/-- `compress(Hin, B)`: the transition of one block as a function of the chaining value and the block
(43_compressor.md R142). -/
def compress (hin : Words8) (b : Block) : Words8 :=
  foldWords hin (roundsUpTo (schedule b) hin 64 (by omega))

/-- INIT, 43_compressor.md R136. -/
def execInit (s : State) : Result :=
  if s.stage = .parsed ∧ s.phase = .uninitialized then .next ((s.writeH H0).setPhase .initialized)
  else .refused (.notAdmitted "INIT")

/-- SCHED on block `i` (43_compressor.md R137). -/
def schedBlock (i : Nat) (s : State) : Result :=
  match s.readBlk i with
  | none => .refused (.outOfRange "BLK")
  | some b => .next (((s.writeW (schedule b)).setPhase (.processing i)).setUs .load)

/-- SCHED, 43_compressor.md R137: from Initialized on block 0 when there is one, else on the block of PHASE. -/
def execSched (s : State) : Result :=
  if s.stage = .parsed then
    match s.phase, s.us with
    | .initialized, _ => if 1 ≤ s.nblk then schedBlock 0 s else .refused (.notAdmitted "SCHED")
    | .processing i, .sched => schedBlock i s
    | _, _ => .refused (.notAdmitted "SCHED")
  else .refused (.notAdmitted "SCHED")

/-- LOAD, 43_compressor.md R138. With NOVAL in H it is refused (10_state.md R25, 60_exceptions.md R199). -/
def execLoad (s : State) : Result :=
  if s.stage = .parsed then
    match s.phase, s.us with
    | .processing _, .load =>
      match readCells s.H with
      | none => .refused (.readNoval "H")
      | some h => .next ((s.writeR h).setUs (.round 0))
    | _, _ => .refused (.notAdmitted "LOAD")
  else .refused (.notAdmitted "LOAD")

/-- The micro-step after round `t` (43_compressor.md R139). -/
def afterRound (t : Fin 64) : MicroStep := if h : t.val + 1 < 64 then .round ⟨t.val + 1, h⟩ else .fold

/-- ROUND, 43_compressor.md R139; the round constant, the schedule word and the round have one index (R146). With NOVAL
in a .. h or in `W[t]` it is refused (10_state.md R25, 60_exceptions.md R199). -/
def execRound (s : State) : Result :=
  if s.stage = .parsed then
    match s.phase, s.us with
    | .processing _, .round t =>
      match readCells s.R, s.W[t] with
      | some r, some w => .next ((s.writeR (round K[t] w r)).setUs (afterRound t))
      | none, _ => .refused (.readNoval "R")
      | some _, none => .refused (.readNoval "W")
    | _, _ => .refused (.notAdmitted "ROUND")
  else .refused (.notAdmitted "ROUND")

/-- FOLD, 43_compressor.md R141. A block index that is not below NBLK has no row in R135. With NOVAL in H or a .. h it is
refused (10_state.md R25, 60_exceptions.md R199). -/
def execFold (s : State) : Result :=
  if s.stage = .parsed then
    match s.phase, s.us with
    | .processing i, .fold =>
      match readCells s.H, readCells s.R with
      | some h, some r =>
        let folded := ((s.writeH (foldWords h r)).endBlock).setUs .sched
        if i + 1 < s.nblk then .next (folded.setPhase (.processing (i + 1)))
        else if i + 1 = s.nblk then .next (folded.setPhase .finalized)
        else .refused (.notAdmitted "FOLD")
      | none, _ => .refused (.readNoval "H")
      | some _, none => .refused (.readNoval "R")
    | _, _ => .refused (.notAdmitted "FOLD")
  else .refused (.notAdmitted "FOLD")

/-- The 67 micro-operations of one block, with nothing between them (43_compressor.md R142). -/
def compressBlock (s : State) : Result :=
  andThen (andThen (andThen (execSched s) execLoad) (repeatOp execRound 64)) execFold

/-- COMPRESS, 43_compressor.md R142. It is refused where a micro-operation of its sequence is: `LOAD` with NOVAL in H
(10_state.md R25, 60_exceptions.md R199). -/
def execCompress (s : State) : Result :=
  if s.stage = .parsed then
    match s.phase, s.us with
    | .initialized, _ => if 1 ≤ s.nblk then compressBlock s else .refused (.notAdmitted "COMPRESS")
    | .processing _, .sched => compressBlock s
    | _, _ => .refused (.notAdmitted "COMPRESS")
  else .refused (.notAdmitted "COMPRESS")

/-- FINAL, 43_compressor.md R144. -/
def execFinal (s : State) : Result :=
  if s.stage = .parsed ∧ s.phase = .initialized ∧ s.nblk = 0 then .next (s.setPhase .finalized)
  else .refused (.notAdmitted "FINAL")

end Sys2Proof.Machine
end

