-- ==== Sys2Proof/Machine/Padder.lean ====
section
/-! DEFINITION. The Padder (41_padder.md): the function `pad` and the operation PAD. -/

namespace Sys2Proof.Machine

/-- The number of zero bytes after the terminator of a message of `len` bytes: `(55 − len) mod 64`, the least `k`
with `(len + 1 + k) mod 64 = 56` (41_padder.md R103). -/
def zeroFill (len : Nat) : Nat := (55 + 64 - len % 64) % 64

/-- A message with its padding: the terminator `0x80`, the zero bytes, the original bit-length on 8 bytes
(41_padder.md R102, R103, R104). -/
def appendPadding (m : List Byte) : List Byte :=
  m ++ [0x80] ++ List.replicate (zeroFill m.length) 0x00 ++ beBytes 8 (8 * m.length)

/-- The padded buffer of a message in the domain (41_padder.md R100, R101): with ALIGNED_SKIP a message whose
bit-length is a multiple of 512 gets no padding; every other message, and every message without ALIGNED_SKIP, does. -/
def padded (cfg : Config) (m : List Byte) : List Byte :=
  if cfg.alignedSkip = true ∧ 8 * m.length % 512 = 0 then m else appendPadding m

/-- `pad(message, bit_length)` (41_padder.md R100), refused outside its domain (41_padder.md R109, 00_scope.md R6). -/
def pad (cfg : Config) (m : List Byte) (bitLength : Nat) : Except Refusal (List Byte) :=
  if ¬ BitLengthOk m bitLength then .error (.bitLengthOutsideDomain bitLength m.length)
  else if ¬ bitLength < 2 ^ 64 then .error (.messageTooLong m.length)
  else .ok (padded cfg m)

/-- PAD for a block with these parameters (41_padder.md R106). -/
def padOp (cfg : Config) (s : State) : Result :=
  if s.stage = .msg then
    match prefixBytes s.msg s.mlen with
    | none => .refused (.outOfRange "MSG")
    | some m =>
      match pad cfg m s.bitlen.toNat with
      | .error e => .refused e
      | .ok p => .next ((s.storePb p).setStage .padded)
  else .refused (.notAdmitted "PAD")

/-- PAD, 41_padder.md R106. -/
def execPad (s : State) : Result := padOp Config.chip s

end Sys2Proof.Machine
end

