-- ==== Sys2Proof/Machine/Parser.lean ====
section
/-! DEFINITION. The Block Parser (42_parser.md): the function `parse` and the operation PARSE. -/

namespace Sys2Proof.Machine

/-- Block `i` of a buffer: its word `j` is the big-endian number at offset `64i + 4j` (42_parser.md R122, R123,
30_encoding.md R65). -/
def blockAt (p : List Byte) (i : Nat) : Block :=
  Vector.ofFn fun j : Fin 16 => BitVec.ofNat 32 (memRead p (64 * i + 4 * j.val) 4)

/-- The blocks of a buffer of whole blocks, in the order they stand in it (42_parser.md R124, R125). -/
def blocksOf (p : List Byte) : List Block := (List.range (p.length / 64)).map (blockAt p)

/-- `parse(padded)` (42_parser.md R120): the failure, on the length alone (R121), or all the blocks; never a part of
them (R128). -/
def parse (p : List Byte) : Except Fault (List Block) :=
  if p.length % 64 ≠ 0 then .error (.invalidInputLength p.length) else .ok (blocksOf p)

/-- PARSE, 42_parser.md R127. The failure takes the exception (60_exceptions.md R193). -/
def execParse (s : State) : Result :=
  if s.stage = .padded then
    match prefixBytes s.pb s.plen with
    | none => .refused (.outOfRange "PB")
    | some p =>
      match parse p with
      | .error (.invalidInputLength _) => .next s.raiseInvalidInputLength
      | .ok bs => .next ((s.storeBlk bs).setStage .parsed)
  else .refused (.notAdmitted "PARSE")

end Sys2Proof.Machine
end

