-- ==== Sys2Proof/Machine/Top.lean ====
section
/-! DEFINITION. The top level (44_top.md): CLEAR, LOADMSG, LOADPB, HASH, and the contract `hash`. -/

namespace Sys2Proof.Machine

/-- CLEAR, 44_top.md R171. -/
def execClear (s : State) : Result := .next s.clear

/-- LOADMSG for a block with these parameters (44_top.md R170). -/
def loadMsgOp (cfg : Config) (m : List Byte) (s : State) : Result :=
  if s.stage = .empty then
    if MessageOk cfg m then .next ((s.storeMsg m).setStage .msg) else .refused (.messageTooLong m.length)
  else .refused (.notAdmitted "LOADMSG")

/-- LOADMSG, 44_top.md R170. -/
def execLoadmsg (m : List Byte) (s : State) : Result := loadMsgOp Config.chip m s

/-- LOADPB, 44_top.md R179. -/
def execLoadpb (p : List Byte) (s : State) : Result :=
  if s.stage = .empty then .next ((s.storePb p).setStage .padded) else .refused (.notAdmitted "LOADPB")

/-- The compressor's part of HASH, after PARSE: it is not performed when PARSE failed (44_top.md R175); else INIT,
then FINAL when there is no block, and COMPRESS once per block when there is (44_top.md R172). -/
def hashBlocks (s : State) : Result :=
  if s.stage = .failed then .next s
  else andThen (execInit s) fun s =>
    if s.nblk = 0 then execFinal s else repeatOp execCompress s.nblk s

/-- HASH for a block with these parameters (44_top.md R172). -/
def hashOp (cfg : Config) (m : List Byte) (s : State) : Result :=
  if MessageOk cfg m then
    andThen (andThen (andThen (andThen (execClear s) (loadMsgOp cfg m)) (padOp cfg)) execParse) hashBlocks
  else .refused (.messageTooLong m.length)

/-- HASH, 44_top.md R172. -/
def execHash (m : List Byte) (s : State) : Result := hashOp Config.chip m s

/-- `hash(m)`, the contract the block offers its caller, as a function (44_top.md R173): the digest of the chaining
values folded over the blocks of the padded message. -/
def hashOf (cfg : Config) (m : List Byte) : List Byte :=
  digestBytes ((blocksOf (padded cfg m)).foldl compress H0)

end Sys2Proof.Machine
end

