-- ==== Sys2Proof/Machine/Dispatch.lean ====
section
/-! DEFINITION. The one dispatch: each operation to its meaning (30_encoding.md R69). -/

namespace Sys2Proof.Machine

def exec (i : Instr) (s : State) : Host.Outcome State Fault Refusal :=
  match i with
  | .add32 x y => Sys2Proof.Machine.execAdd32 x y s
  | .rotr n x => Sys2Proof.Machine.execRotr n x s
  | .shr n x => Sys2Proof.Machine.execShr n x s
  | .ssigma0 x => Sys2Proof.Machine.execSsigma0 x s
  | .ssigma1 x => Sys2Proof.Machine.execSsigma1 x s
  | .lsigma0 x => Sys2Proof.Machine.execLsigma0 x s
  | .lsigma1 x => Sys2Proof.Machine.execLsigma1 x s
  | .ch x y z => Sys2Proof.Machine.execCh x y z s
  | .maj x y z => Sys2Proof.Machine.execMaj x y z s
  | .pad => Sys2Proof.Machine.execPad s
  | .parse => Sys2Proof.Machine.execParse s
  | .init => Sys2Proof.Machine.execInit s
  | .sched => Sys2Proof.Machine.execSched s
  | .load => Sys2Proof.Machine.execLoad s
  | .round => Sys2Proof.Machine.execRound s
  | .fold => Sys2Proof.Machine.execFold s
  | .final => Sys2Proof.Machine.execFinal s
  | .compress => Sys2Proof.Machine.execCompress s
  | .clear => Sys2Proof.Machine.execClear s
  | .loadmsg m => Sys2Proof.Machine.execLoadmsg m s
  | .loadpb p => Sys2Proof.Machine.execLoadpb p s
  | .hash m => Sys2Proof.Machine.execHash m s

end Sys2Proof.Machine
end

