-- ==== Sys2Proof/Machine/Step.lean ====
section
/-! DEFINITION. One step: the next operation of the command port is taken off it, decoded and performed. -/

namespace Sys2Proof.Machine

/-- One step (20_memory.md R49: one operation at a time): with no operation issued nothing happens; an identifier
outside the operation map is refused (30_encoding.md R70); else the operation is performed. -/
def step (s : State) : Host.Outcome State Fault Refusal :=
  match s.takeCommand with
  | none => idle s
  | some (c, s') =>
    match decode c with
    | .error e => .refused (refusalOf e)
    | .ok i => exec i s'

/-- The state with a row's word of spec/opcode_table.json as the operation the host issues next (log 6). -/
def State.withFetchWord (s : State) (nbits w : Nat) : State :=
  { s with port := tableCommand nbits w :: s.port }

end Sys2Proof.Machine
end

