-- ==== Sys2Proof/WellFormed.lean ====
section
/-! DEFINITION. Which instructions have all their operands in the documented domain (30_encoding.md R71). -/

namespace Sys2Proof

/-- Every operand is in its documented domain: an amount below 32 (30_encoding.md R67), a message that the parameters
admit (00_scope.md R6). A padded buffer given to LOADPB has any length (44_top.md R179). -/
def Instr.wellFormed (cfg : Config) (i : Instr) : Bool :=
  match i with
  | .add32 _ _ => true
  | .rotr n _ => decide (Machine.AmountOk n)
  | .shr n _ => decide (Machine.AmountOk n)
  | .ssigma0 _ => true
  | .ssigma1 _ => true
  | .lsigma0 _ => true
  | .lsigma1 _ => true
  | .ch _ _ _ => true
  | .maj _ _ _ => true
  | .pad => true
  | .parse => true
  | .init => true
  | .sched => true
  | .load => true
  | .round => true
  | .fold => true
  | .final => true
  | .compress => true
  | .clear => true
  | .loadmsg m => decide (Machine.MessageOk cfg m)
  | .loadpb _ => true
  | .hash m => decide (Machine.MessageOk cfg m)

end Sys2Proof
end

