-- ==== Sys2Proof/Safety.lean ====
section
/-! DEFINITION. The terms claims are stated in: the formats and the table of admitted operations, the ends of a run,
the invariant of the state, and the invariant that ties the hash state to the blocks. -/

namespace Sys2Proof.Machine

/-- The three formats of operations (30_encoding.md R61). -/
inductive Format where
  /-- A stateless function of the logic unit. -/
  | fn
  /-- A micro-operation of the compressor. -/
  | uop
  /-- A command. -/
  | cmd
deriving DecidableEq, Repr

/-- The format column of the operation map (30_encoding.md R69). -/
def formatOf (i : Instr) : Format :=
  match i with
  | .add32 _ _ => .fn
  | .rotr _ _ => .fn
  | .shr _ _ => .fn
  | .ssigma0 _ => .fn
  | .ssigma1 _ => .fn
  | .lsigma0 _ => .fn
  | .lsigma1 _ => .fn
  | .ch _ _ _ => .fn
  | .maj _ _ _ => .fn
  | .pad => .cmd
  | .parse => .cmd
  | .init => .cmd
  | .sched => .uop
  | .load => .uop
  | .round => .uop
  | .fold => .uop
  | .final => .cmd
  | .compress => .cmd
  | .clear => .cmd
  | .loadmsg _ => .cmd
  | .loadpb _ => .cmd
  | .hash _ => .cmd

/-- The compressor stands before the first micro-operation of a block: Initialized with a block to process, or
`ProcessingBlock(i)` at U_SCHED (the condition of SCHED in 43_compressor.md R135 and of COMPRESS in R142). -/
def atBlockStart (s : State) : Bool :=
  match s.phase, s.us with
  | .initialized, _ => decide (1 ≤ s.nblk)
  | .processing _, .sched => true
  | _, _ => false

/-- The compressor stands at this micro-operation of some block. -/
def atMicroStep (s : State) (ok : MicroStep → Bool) : Bool :=
  match s.phase with
  | .processing _ => ok s.us
  | _ => false

/-- The states in which an operation is admitted, for a block with these parameters (44_top.md R177, with the rows of
43_compressor.md R135). An operation of format FN needs an amount in its domain and no state. -/
def admitted (cfg : Config) (i : Instr) (s : State) : Bool :=
  match i with
  | .add32 _ _ => true
  | .rotr n _ => decide (AmountOk n)
  | .shr n _ => decide (AmountOk n)
  | .ssigma0 _ => true
  | .ssigma1 _ => true
  | .lsigma0 _ => true
  | .lsigma1 _ => true
  | .ch _ _ _ => true
  | .maj _ _ _ => true
  | .pad => s.stage == .msg
  | .parse => s.stage == .padded
  | .init => s.stage == .parsed && s.phase == .uninitialized
  | .sched => s.stage == .parsed && atBlockStart s
  | .load => s.stage == .parsed && atMicroStep s (· == .load)
  | .round => s.stage == .parsed && atMicroStep s (fun u => match u with | .round _ => true | _ => false)
  | .fold => s.stage == .parsed && atMicroStep s (· == .fold)
  | .final => s.stage == .parsed && s.phase == .initialized && s.nblk == 0
  | .compress => s.stage == .parsed && atBlockStart s
  | .clear => true
  | .loadmsg m => s.stage == .empty && decide (MessageOk cfg m)
  | .loadpb _ => s.stage == .empty
  | .hash m => decide (MessageOk cfg m)

/-- A run has ended with a digest (44_top.md R178). -/
def succeeded (s : State) : Bool := s.phase == .finalized

/-- A run has ended with the failure (44_top.md R178). -/
def failedRun (s : State) : Bool := s.stage == .failed

/-- The form of the buffers: each length register says how long its buffer is, BITLEN is 8 times the byte count and
fits its 64 bits (10_state.md R16, R17, R18). A buffer is a list of bytes, so equal buffers are equal data (log 19). -/
abbrev Memory.wf (s : State) : Prop :=
  s.mlen = s.msg.length ∧ s.bitlen.toNat = 8 * s.mlen ∧ s.plen = s.pb.length ∧ s.nblk = s.blk.length

/-- What STAGE says of the buffers (10_state.md R20, 60_exceptions.md R193). -/
def stageInv (s : State) : Prop :=
  match s.stage with
  | .empty => s.msg = [] ∧ s.pb = [] ∧ s.blk = []
  | .msg => s.pb = [] ∧ s.blk = []
  | .padded => s.blk = []
  | .parsed => s.pb.length = 64 * s.blk.length
  | .failed => s.blk = [] ∧ s.pb.length % 64 ≠ 0

/-- What PHASE and US say of the register files and of STAGE (10_state.md R19, R28, 43_compressor.md R135): H holds
its eight words from INIT on; W and a .. h hold words from SCHED and LOAD of a block to its FOLD, and NOVAL elsewhere;
outside ProcessingBlock US is U_SCHED; the compressor has started only in S_PARSED. -/
def phaseInv (s : State) : Prop :=
  match s.phase with
  | .uninitialized => NoneHolds s.H ∧ NoneHolds s.W ∧ NoneHolds s.R ∧ s.us = .sched
  | .initialized => s.stage = .parsed ∧ AllHold s.H ∧ NoneHolds s.W ∧ NoneHolds s.R ∧ s.us = .sched
  | .processing i =>
    s.stage = .parsed ∧ AllHold s.H ∧ i < s.nblk ∧
      match s.us with
      | .sched => 0 < i ∧ NoneHolds s.W ∧ NoneHolds s.R
      | .load => AllHold s.W ∧ NoneHolds s.R
      | .round _ => AllHold s.W ∧ AllHold s.R
      | .fold => AllHold s.W ∧ AllHold s.R
  | .finalized => s.stage = .parsed ∧ AllHold s.H ∧ NoneHolds s.W ∧ NoneHolds s.R ∧ s.us = .sched

/-- The invariant of the state of one instance. ERR is 1 exactly in S_FAILED (10_state.md R21, 60_exceptions.md
R193, R194). -/
def StateInv (s : State) : Prop :=
  Memory.wf s ∧ stageInv s ∧ phaseInv s ∧ (s.err = true ↔ s.stage = .failed)

/-- The chaining value after the first `i` blocks (43_compressor.md R143). -/
def chain (bs : List Block) (i : Nat) : Words8 := (bs.take i).foldl compress H0

/-- What the hash state, the schedule and the working registers hold at each phase (43_compressor.md R137 to R143):
H is the chaining value of the blocks folded so far, W is the schedule of the current block, a .. h are its working
registers after the rounds done so far. -/
def chainInv (s : State) : Prop :=
  match s.phase with
  | .uninitialized => True
  | .initialized => s.H = cellsOf H0
  | .processing i =>
    s.H = cellsOf (chain s.blk i) ∧
      match s.us with
      | .sched => True
      | .load => ∃ b, s.blk[i]? = some b ∧ s.W = cellsOf (schedule b)
      | .round t => ∃ b, s.blk[i]? = some b ∧ s.W = cellsOf (schedule b) ∧
          s.R = cellsOf (roundsUpTo (schedule b) (chain s.blk i) t.val (by omega))
      | .fold => ∃ b, s.blk[i]? = some b ∧ s.W = cellsOf (schedule b) ∧
          s.R = cellsOf (roundsUpTo (schedule b) (chain s.blk i) 64 (by omega))
  | .finalized => s.H = cellsOf (chain s.blk s.blk.length)

/-- The invariant that a run computes what the spec's functions say, for a block with these parameters: the buffers are
the padding of the message and the parse of the padded buffer, the registers are those of `chainInv`. A message that
is not empty comes from LOADMSG, so PB is its padding (44_top.md R179: with LOADPB the message stays empty). -/
def HashInv (cfg : Config) (s : State) : Prop :=
  StateInv s ∧
  (s.stage = .parsed → s.blk = blocksOf s.pb) ∧
  (s.msg ≠ [] → s.stage = .padded ∨ s.stage = .parsed ∨ s.stage = .failed → s.pb = padded cfg s.msg) ∧
  chainInv s

/-! ## Terms of single statements -/

/-- An operation of format FN has this identifier, sets no flag and raises no exception: it always answers a next state,
with ERR as it was. The format and the absence of flags and exceptions stand in each rule R81 to R90. -/
def FnRow (i : Instr) (opid : Byte) : Prop :=
  (encode i).opid = opid ∧ formatOf i = .fn ∧ ∀ s, ∃ t, exec i s = .next t ∧ t.err = s.err

/-- The number of 1 bits of a word. -/
def oneBits (x : Word) : Nat := (List.range 32).countP fun k => x.getLsbD k

/-- The 22 identifiers of the operation map (30_encoding.md R69). -/
def tableOpids : List Byte :=
  [0x00, 0x01, 0x02, 0x03, 0x04, 0x05, 0x06, 0x07, 0x08, 0x10, 0x20, 0x30, 0x31, 0x32, 0x33, 0x34, 0x35, 0x3f,
   0x40, 0x41, 0x42, 0x4f]

/-- The first 64 primes (10_state.md R14). -/
def firstPrimes : List Nat :=
  (List.range 312).filter fun p =>
    decide (2 ≤ p) && (List.range p).all fun d => decide (d < 2) || decide (p % d ≠ 0)

/-- The first block of the message "abc" (43_compressor.md R137, 95_test_vectors.md section 4). -/
def abcBlock : Block := #v[0x61626380, 0, 0, 0, 0, 0, 0, 0, 0, 0, 0, 0, 0, 0, 0, 0x00000018]

/-- The 67 micro-operations of a block (43_compressor.md R142). -/
def microOps : List Instr := [.sched, .load] ++ List.replicate 64 .round ++ [.fold]

end Sys2Proof.Machine
end

