-- ==== Sys2Proof/Certificates/Slice0/Obligations.lean ====
section
/-! DEFINITION. The statements for the provers. Each docstring names the rule of spec/ it formalises; where a clause
rests on a decision the spec marks as its own, or on a choice of the model, it says so and names it. -/

open Sys2Proof Sys2Proof.Machine

/-! ## The logic unit (40_logic.md) -/

/-- From R81: `ADD32(x, y) = (x + y) mod 2^32`, its identifier, no flag, no exception, its corner cases and examples. The
identifier is the spec's decision D3 (log 21), and that it completes in every state is log 9: derived. -/
def Obligations.Add32IsSumModuloTwoPow32 : Prop :=
  (∀ x y : Word, FnRow (.add32 x y) 0x00) ∧
  (∀ x y : Word, (add32 x y).toNat = (x.toNat + y.toNat) % 2 ^ 32) ∧
  (∀ x y : Word, x.toNat + y.toNat < 2 ^ 32 → (add32 x y).toNat = x.toNat + y.toNat) ∧
  (∀ x y : Word, 2 ^ 32 ≤ x.toNat + y.toNat → (add32 x y).toNat + 2 ^ 32 = x.toNat + y.toNat) ∧
  (∀ x : Word, add32 x 0 = x) ∧
  add32 0xffffffff 1 = 0 ∧ add32 0x80000000 0x80000000 = 0 ∧ add32 0xffffffff 0xffffffff = 0xfffffffe ∧
  add32 0x6a09e667 0x506e3058 = 0xba7816bf ∧ add32 0xfa2a4622 0x510e527f = 0x4b3898a1

/-- From R83. That "right" is toward bit 0 is the spec's decision D20, from general knowledge (log 3); the domain of `n` is
decision D11, the identifier D3 (log 21); that it completes in every state is log 9: derived. -/
def Obligations.RotrIsCircularRightRotation : Prop :=
  (∀ (n : Nat) (x : Word), n ≤ 31 →
    FnRow (.rotr n x) 0x01 ∧
    (∀ k < 32, (rotr n x).getLsbD k = x.getLsbD ((k + n) % 32)) ∧
    (rotr n x).toNat = x.toNat / 2 ^ n + x.toNat % 2 ^ n * 2 ^ (32 - n) ∧
    (1 ≤ n → rotr n x = x >>> n ||| x <<< (32 - n)) ∧
    oneBits (rotr n x) = oneBits x ∧
    rotr n 0 = 0 ∧ rotr n 0xffffffff = 0xffffffff) ∧
  (∀ x : Word, rotr 0 x = x) ∧
  (∀ (m n : Nat) (x : Word), m ≤ 31 → n ≤ 31 → rotr m (rotr n x) = rotr ((m + n) % 32) x) ∧
  (∀ (n : Nat) (x : Word) (s : State), 32 ≤ n → exec (.rotr n x) s = .refused (.amountOutOfRange n)) ∧
  rotr 7 0x00000001 = 0x02000000 ∧ rotr 7 0x12345678 = 0xf02468ac

/-- From R84: `SHR(n, x) = floor(x / 2^n)`, by bits and by arithmetic, its corner cases and examples. That "right" is
toward bit 0 is from general knowledge (log 3); that `n = 0` gives `x` and `n ≥ 32` is refused is the spec's decision D11,
the identifier D3 (log 21); that it completes in every state is log 9: derived. -/
def Obligations.ShrIsFloorOfDivision : Prop :=
  (∀ (n : Nat) (x : Word), n ≤ 31 →
    FnRow (.shr n x) 0x02 ∧
    (shr n x).toNat = x.toNat / 2 ^ n ∧
    (∀ k < 32, (shr n x).getLsbD k = (decide (k + n ≤ 31) && x.getLsbD (k + n))) ∧
    (∀ y : Word, x.toNat / 2 ^ n = y.toNat / 2 ^ n → shr n x = shr n y) ∧
    (shr n 0x80000000).toNat = 2 ^ (31 - n) ∧
    (n ≠ 0 → (shr n 0x80000000).getLsbD 31 = false)) ∧
  (∀ x : Word, shr 0 x = x) ∧
  (∀ x : Word, (shr 31 x).toNat = (x.getLsbD 31).toNat) ∧
  (∀ (n : Nat) (x : Word) (s : State), 32 ≤ n → exec (.shr n x) s = .refused (.amountOutOfRange n)) ∧
  shr 3 0x80000000 = 0x10000000 ∧ shr 10 0xffffffff = 0x003fffff

/-- From R85: `ssigma0` is the XOR of two rotations and a shift, said bit by bit; linear over XOR; examples. The direction
of the rotations is the spec's decision D20 (log 3), the linearity an inference the spec marks as its own; the identifier
is decision D3 (log 21), completion in every state log 9: derived. -/
def Obligations.Ssigma0BitByBit : Prop :=
  (∀ x : Word, FnRow (.ssigma0 x) 0x03) ∧
  (∀ x : Word, ssigma0 x = rotr 7 x ^^^ rotr 18 x ^^^ shr 3 x) ∧
  (∀ (x : Word), ∀ k < 32, (ssigma0 x).getLsbD k =
    ((x.getLsbD ((k + 7) % 32) ^^ x.getLsbD ((k + 18) % 32)) ^^ (decide (k + 3 ≤ 31) && x.getLsbD (k + 3)))) ∧
  (∀ x y : Word, ssigma0 (x ^^^ y) = ssigma0 x ^^^ ssigma0 y) ∧
  ssigma0 0 = 0 ∧ ssigma0 0xffffffff = 0x1fffffff ∧
  ssigma0 0x00000001 = 0x02004000 ∧ ssigma0 0x61626380 = 0x940e90ef

/-- From R86: `ssigma1`, said bit by bit; linear over XOR; examples. The direction of the rotations is the spec's decision
D20 (log 3), the identifier D3 (log 21); completion in every state is log 9: derived. -/
def Obligations.Ssigma1BitByBit : Prop :=
  (∀ x : Word, FnRow (.ssigma1 x) 0x04) ∧
  (∀ x : Word, ssigma1 x = rotr 17 x ^^^ rotr 19 x ^^^ shr 10 x) ∧
  (∀ (x : Word), ∀ k < 32, (ssigma1 x).getLsbD k =
    ((x.getLsbD ((k + 17) % 32) ^^ x.getLsbD ((k + 19) % 32)) ^^ (decide (k + 10 ≤ 31) && x.getLsbD (k + 10)))) ∧
  (∀ x y : Word, ssigma1 (x ^^^ y) = ssigma1 x ^^^ ssigma1 y) ∧
  ssigma1 0 = 0 ∧ ssigma1 0xffffffff = 0x003fffff ∧
  ssigma1 0x00000001 = 0x0000a000 ∧ ssigma1 0x80000000 = 0x00205000

/-- From R87: `lsigma0`, three rotations, said bit by bit; linear over XOR; examples. The direction of the rotations is the
spec's decision D20 (log 3), the identifier D3 (log 21); completion in every state is log 9: derived. -/
def Obligations.Lsigma0BitByBit : Prop :=
  (∀ x : Word, FnRow (.lsigma0 x) 0x05) ∧
  (∀ x : Word, lsigma0 x = rotr 2 x ^^^ rotr 13 x ^^^ rotr 22 x) ∧
  (∀ (x : Word), ∀ k < 32, (lsigma0 x).getLsbD k =
    ((x.getLsbD ((k + 2) % 32) ^^ x.getLsbD ((k + 13) % 32)) ^^ x.getLsbD ((k + 22) % 32))) ∧
  (∀ x y : Word, lsigma0 (x ^^^ y) = lsigma0 x ^^^ lsigma0 y) ∧
  lsigma0 0 = 0 ∧ lsigma0 0xffffffff = 0xffffffff ∧
  lsigma0 0x00000001 = 0x40080400 ∧ lsigma0 0x6a09e667 = 0xce20b47e

/-- From R88: `lsigma1`, three rotations, said bit by bit; linear over XOR; examples. The direction of the rotations is the
spec's decision D20 (log 3), the identifier D3 (log 21); completion in every state is log 9: derived. -/
def Obligations.Lsigma1BitByBit : Prop :=
  (∀ x : Word, FnRow (.lsigma1 x) 0x06) ∧
  (∀ x : Word, lsigma1 x = rotr 6 x ^^^ rotr 11 x ^^^ rotr 25 x) ∧
  (∀ (x : Word), ∀ k < 32, (lsigma1 x).getLsbD k =
    ((x.getLsbD ((k + 6) % 32) ^^ x.getLsbD ((k + 11) % 32)) ^^ x.getLsbD ((k + 25) % 32))) ∧
  (∀ x y : Word, lsigma1 (x ^^^ y) = lsigma1 x ^^^ lsigma1 y) ∧
  lsigma1 0 = 0 ∧ lsigma1 0xffffffff = 0xffffffff ∧
  lsigma1 0x00000001 = 0x04200080 ∧ lsigma1 0x510e527f = 0x3587272b

/-- From R89: `Ch` selects, per bit position, the bit of `y` where `x` is 1 and that of `z` where `x` is 0; the two terms
never meet, so XOR may be read as OR or as addition; an equal form; corner cases and examples. The OR, the addition and
the equal form are inferences the spec marks as its own (from R82); the identifier is decision D3 (log 21), completion in
every state log 9: derived. -/
def Obligations.ChSelectsBits : Prop :=
  (∀ x y z : Word,
    FnRow (.ch x y z) 0x07 ∧
    ch x y z = (x &&& y) ^^^ (~~~x &&& z) ∧
    (∀ k < 32, (ch x y z).getLsbD k = if x.getLsbD k then y.getLsbD k else z.getLsbD k) ∧
    ch x y z = (x &&& y) ||| (~~~x &&& z) ∧
    ch x y z = (x &&& y) + (~~~x &&& z) ∧
    ch x y z = z ^^^ (x &&& (y ^^^ z)) ∧
    ch 0 y z = z ∧ ch 0xffffffff y z = y ∧ ch x y y = y) ∧
  ch 0xf0f0f0f0 0xcccccccc 0xaaaaaaaa = 0xcacacaca ∧ ch 0x510e527f 0x9b05688c 0x1f83d9ab = 0x1f85c98c

/-- From R90: `Maj` is the majority vote per bit position; symmetric; corner cases and examples. The corner cases are
inferences the spec marks as its own (from R82); the identifier is decision D3 (log 21), completion in every state log 9:
derived. -/
def Obligations.MajIsMajorityVote : Prop :=
  (∀ x y z : Word,
    FnRow (.maj x y z) 0x08 ∧
    maj x y z = (x &&& y) ^^^ (x &&& z) ^^^ (y &&& z) ∧
    (∀ k < 32, (maj x y z).getLsbD k =
      decide (2 ≤ (x.getLsbD k).toNat + (y.getLsbD k).toNat + (z.getLsbD k).toNat)) ∧
    maj x y z = maj y x z ∧ maj x y z = maj x z y ∧
    maj x x z = x ∧ maj 0 y z = (y &&& z) ∧ maj 0xffffffff y z = (y ||| z)) ∧
  maj 0xf0f0f0f0 0xcccccccc 0xaaaaaaaa = 0xe8e8e8e8 ∧ maj 0x6a09e667 0xbb67ae85 0x3c6ef372 = 0x3a6fe667

/-- Completion and frame of the nine FN operations: in every state each answers the state with its word presented and
nothing else changed (from R91: no state of R10 is read or written). That they are accepted in every state is log 9, that
the word is presented in `fnOut` is the model's choice (log 8): derived. -/
def Obligations.FnOperationsGiveTheirWord : Prop :=
  ∀ (s : State) (x y z : Word),
    exec (.add32 x y) s = .next { s with fnOut := some (add32 x y) } ∧
    (∀ n ≤ 31, exec (.rotr n x) s = .next { s with fnOut := some (rotr n x) }) ∧
    (∀ n ≤ 31, exec (.shr n x) s = .next { s with fnOut := some (shr n x) }) ∧
    exec (.ssigma0 x) s = .next { s with fnOut := some (ssigma0 x) } ∧
    exec (.ssigma1 x) s = .next { s with fnOut := some (ssigma1 x) } ∧
    exec (.lsigma0 x) s = .next { s with fnOut := some (lsigma0 x) } ∧
    exec (.lsigma1 x) s = .next { s with fnOut := some (lsigma1 x) } ∧
    exec (.ch x y z) s = .next { s with fnOut := some (ch x y z) } ∧
    exec (.maj x y z) s = .next { s with fnOut := some (maj x y z) }

/-! ## Byte order and encodings (20_memory.md, 30_encoding.md, 10_state.md) -/

/-- From R42: the number a read gives is the big-endian sum of the bytes, of `8n` bits. What the block uses it for is not
said here: derived. -/
def Obligations.MemReadIsBigEndianSum : Prop :=
  ∀ (buf : List Byte) (k n : Nat), k + n ≤ buf.length →
    memRead buf k n = ((List.range n).map fun q => (buf.getD (k + q) 0).toNat * 256 ^ (n - 1 - q)).sum ∧
    memRead buf k n < 2 ^ (8 * n)

/-- From R43: a write puts byte `q` of the value at offset `k + q`, leaves every other byte and the length alone, a read of
the same width gives the value back, and a narrower read sees exactly these bytes. What the block uses it for is not said
here: derived. -/
def Obligations.MemWriteSetsExactlyItsBytes : Prop :=
  ∀ (buf : List Byte) (k n v : Nat), k + n ≤ buf.length → v < 256 ^ n →
    (memWrite buf k n v).length = buf.length ∧
    (∀ q < n, (memWrite buf k n v)[k + q]? = some (BitVec.ofNat 8 (v / 256 ^ (n - 1 - q) % 256))) ∧
    (∀ a, a < k ∨ k + n ≤ a → (memWrite buf k n v)[a]? = buf[a]?) ∧
    memRead (memWrite buf k n v) k n = v ∧
    (∀ q < n, memRead (memWrite buf k n v) (k + q) 1 = v / 256 ^ (n - 1 - q) % 256)

/-- R64: the last 8 bytes of the padding are the original bit-length, byte `q` of it `floor(8L / 256^(7−q)) mod 256`. -/
def Obligations.LengthFieldIsOriginalBitLength : Prop :=
  (∀ m : List Byte, 8 * m.length < 2 ^ 64 →
    memRead (appendPadding m) ((appendPadding m).length - 8) 8 = 8 * m.length ∧
    ∀ q < 8, (appendPadding m)[(appendPadding m).length - 8 + q]? =
      some (BitVec.ofNat 8 (8 * m.length / 256 ^ (7 - q) % 256))) ∧
  beBytes 8 (8 * 3) = [0x00, 0x00, 0x00, 0x00, 0x00, 0x00, 0x00, 0x18] ∧
  beBytes 8 (8 * 56) = [0x00, 0x00, 0x00, 0x00, 0x00, 0x00, 0x01, 0xc0]

/-- R65: word `j` of block `i` is assembled from the four bytes at `64i + 4j`, the lowest offset most significant. -/
def Obligations.BlockWordIsFourBytesBigEndian : Prop :=
  ∀ (p : List Byte) (i : Nat) (j : Fin 16) (b0 b1 b2 b3 : Byte), i < p.length / 64 →
    p[64 * i + 4 * j.val]? = some b0 → p[64 * i + 4 * j.val + 1]? = some b1 →
    p[64 * i + 4 * j.val + 2]? = some b2 → p[64 * i + 4 * j.val + 3]? = some b3 →
    ∃ b, (blocksOf p)[i]? = some b ∧
      b[j].toNat = b0.toNat * 2 ^ 24 + b1.toNat * 2 ^ 16 + b2.toNat * 2 ^ 8 + b3.toNat ∧
      b[j].extractLsb' 24 8 = b0 ∧ b[j].extractLsb' 16 8 = b1 ∧
      b[j].extractLsb' 8 8 = b2 ∧ b[j].extractLsb' 0 8 = b3

/-- R66: byte `4j + q` of the digest is `floor(H[j] / 256^(3−q)) mod 256`; it has 32 bytes. -/
def Obligations.DigestIsWordsBigEndian : Prop :=
  ∀ h : Words8, (digestBytes h).length = 32 ∧
    ∀ (j : Fin 8), ∀ q < 4,
      (digestBytes h)[4 * j.val + q]? = some (BitVec.ofNat 8 (h[j].toNat / 256 ^ (3 - q) % 256))

/-- Decode and encode agree on every operation with every operand, from the operation map of R69: the identifier is one
of the map's, decoding gives the operation back, and a command that decodes has the identifier of what it decodes to.
The operands stand beside the identifier by the model's choice (log 7): derived. -/
def Obligations.DecodeEncodeAgree : Prop :=
  (∀ i : Instr, decode (encode i) = .ok i ∧ (encode i).opid ∈ tableOpids) ∧
  (∀ (c : Command) (i : Instr), decode c = .ok i → (encode i).opid = c.opid) ∧
  (∀ c : Command, (∃ i, decode c = .ok i) ↔ c.opid ∈ tableOpids)

/-- From R70 (decision D3 of the spec, so derived): an identifier outside the map is refused by name, by the decoder and
by a step, in every state, and is never a no-operation. -/
def Obligations.UnknownIdentifierRefused : Prop :=
  ∀ (s : State) (c : Command) (rest : List Command), c.opid ∉ tableOpids → s.port = c :: rest →
    decode c = .error (.unknownOpid c.opid) ∧ step s = .refused (.unknownOpid c.opid)

/-- A few identifiers of the map, written out bit by bit, decode to the operations they stand for, one of each unit and
format. Derived: the operands' inputs are the model's (log 7). -/
def Obligations.TableWordsDecode : Prop :=
  decodeTableWord 8 0b00000000 = some (.add32 0 0) ∧
  decodeTableWord 8 0b00000001 = some (.rotr 0 0) ∧
  decodeTableWord 8 0b00001000 = some (.maj 0 0 0) ∧
  decodeTableWord 8 0b00010000 = some .pad ∧
  decodeTableWord 8 0b00100000 = some .parse ∧
  decodeTableWord 8 0b00110011 = some .round ∧
  decodeTableWord 8 0b00111111 = some .compress ∧
  decodeTableWord 8 0b01000001 = some (.loadmsg []) ∧
  decodeTableWord 8 0b01001111 = some (.hash []) ∧
  decodeTableWord 8 0b01010000 = none

/-- From R14: `K[t]` is `floor(cuberoot(p_t) × 2^32) mod 2^32` for the `t`-th prime: the table's word is the residue of
the largest `r` with `r^3 ≤ p_t × 2^96`. The values are computed by the spec from that definition (D19; log 18):
derived. -/
def Obligations.RoundConstantsAreCubeRoots : Prop :=
  firstPrimes.length = 64 ∧
  ∀ t : Fin 64, ∃ r : Nat, r ^ 3 ≤ firstPrimes.getD t.val 0 * 2 ^ 96 ∧ firstPrimes.getD t.val 0 * 2 ^ 96 < (r + 1) ^ 3 ∧
    K[t].toNat = r % 2 ^ 32

/-! ## The Padder (41_padder.md) -/

/-- From R62 (derived there from R102 to R104): the layout of the padding of a message of `L` bytes, with
`k = (55 − L) mod 64` and `N = floor((L + 8) / 64) + 1`. -/
def Obligations.PaddedBufferLayout : Prop :=
  ∀ m : List Byte, 8 * m.length < 2 ^ 64 →
    (zeroFill m.length + m.length) % 64 = 55 ∧ zeroFill m.length ≤ 63 ∧
    (appendPadding m).length = m.length + zeroFill m.length + 9 ∧
    (appendPadding m).length = 64 * ((m.length + 8) / 64 + 1) ∧
    (appendPadding m).take m.length = m ∧
    (appendPadding m)[m.length]? = some 0x80 ∧
    (∀ q < zeroFill m.length, (appendPadding m)[m.length + 1 + q]? = some 0x00) ∧
    (appendPadding m).drop (m.length + 1 + zeroFill m.length) = beBytes 8 (8 * m.length)

/-- From R103 and R108 (inferences of the spec's in part: derived): the number of zero bytes is the smallest that makes
the bit-length 448 modulo 512; it is 0 exactly when `L mod 64 = 55`, and 63 exactly when `L mod 64 = 56`; 55 bytes pad
into one block and 56 into two, and the number of blocks grows by one exactly when `L mod 64` passes from 55 to 56. -/
def Obligations.ZeroFillIsLeastAndBlockBoundary : Prop :=
  (∀ len : Nat,
    8 * (len + 1 + zeroFill len) % 512 = 448 ∧
    (∀ k < zeroFill len, 8 * (len + 1 + k) % 512 ≠ 448) ∧
    (zeroFill len = 0 ↔ len % 64 = 55) ∧ (zeroFill len = 63 ↔ len % 64 = 56)) ∧
  (∀ m : List Byte, m.length = 55 → (blocksOf (appendPadding m)).length = 1) ∧
  (∀ m : List Byte, m.length = 56 → (blocksOf (appendPadding m)).length = 2) ∧
  (∀ m m' : List Byte, m'.length = m.length + 1 →
    (blocksOf (appendPadding m')).length =
      (blocksOf (appendPadding m)).length + if m.length % 64 = 55 then 1 else 0)

/-- From R105: for both values of ALIGNED_SKIP the result is a whole number of 512-bit blocks that begins with the
message, and where padding was applied its last 8 bytes decode as the original bit-length. ALIGNED_SKIP is the
spec's parameter (D1; log 4): derived. -/
def Obligations.PaddedLengthIsWholeBlocks : Prop :=
  ∀ (cfg : Config) (m : List Byte), 8 * m.length < 2 ^ 64 →
    8 * (padded cfg m).length % 512 = 0 ∧
    (padded cfg m).take m.length = m ∧
    (padded cfg m ≠ m → memRead (padded cfg m) ((padded cfg m).length - 8) 8 = 8 * m.length)

/-- From R100, R101, R109 (decisions D1 and D10; log 4, log 13: derived): which messages get no padding, for each value
of ALIGNED_SKIP, and the value this hardware takes; the function `pad` answers that buffer in its domain, and gives
nothing for a bit-length that is not a multiple of 8 or not 8 times the byte count. -/
def Obligations.PadFunctionChoosesPadding : Prop :=
  (∀ (cfg : Config) (m : List Byte), cfg.alignedSkip = true → m.length % 64 = 0 → padded cfg m = m) ∧
  (∀ (cfg : Config) (m : List Byte), cfg.alignedSkip = true → m.length % 64 ≠ 0 → padded cfg m = appendPadding m) ∧
  (∀ (cfg : Config) (m : List Byte), cfg.alignedSkip = false → padded cfg m = appendPadding m) ∧
  Config.chip.alignedSkip = false ∧
  (∀ (cfg : Config) (m : List Byte), 8 * m.length < 2 ^ 64 → pad cfg m (8 * m.length) = .ok (padded cfg m)) ∧
  (∀ (cfg : Config) (m : List Byte) (n : Nat), n % 8 ≠ 0 ∨ n ≠ 8 * m.length →
    pad cfg m n = .error (.bitLengthOutsideDomain n m.length))

/-- From R106: in S_MSG, with the buffers in form, PAD writes PB, PLEN and STAGE, and nothing else; everywhere else it is
refused. For every configuration and for this hardware, whose PB is the message with its padding for every message
because ALIGNED_SKIP is false (the spec's decision D1; log 4). The effect on STAGE is the decision D4 (log 21): derived. -/
def Obligations.PadWritesPaddedBuffer : Prop :=
  (∀ (cfg : Config) (s : State), s.stage = .msg → Memory.wf s →
    padOp cfg s = .next { s with pb := padded cfg s.msg, plen := (padded cfg s.msg).length, stage := .padded }) ∧
  (∀ s : State, s.stage = .msg → Memory.wf s →
    exec .pad s = .next
      { s with pb := appendPadding s.msg, plen := (appendPadding s.msg).length, stage := .padded }) ∧
  (∀ s : State, s.stage ≠ .msg → exec .pad s = .refused (.notAdmitted "PAD"))

/-! ## The Block Parser (42_parser.md) -/

/-- R121: the length check fails exactly on a length that is not a multiple of 64, with that length as its value; it looks
at the length alone, so two buffers of one length both fail or both parse. -/
def Obligations.ParseFailsExactlyOffBlock : Prop :=
  (∀ p : List Byte, parse p = .error (.invalidInputLength p.length) ↔ p.length % 64 ≠ 0) ∧
  (∀ p q : List Byte, p.length = q.length → ((∃ e, parse p = .error e) ↔ ∃ e, parse q = .error e))

/-- From R128 and R122: a failing `parse` produces nothing, not even the whole blocks of 65 bytes; a succeeding one gives
chunks that are the whole buffer, block `i` made of the bytes `64i .. 64i+63` and of no other, in the order they stand in
it (R124). That the empty buffer gives no block and no error is R125's, an inference the spec marks as its own (from R121):
derived. -/
def Obligations.ParseGivesAllBlocksOrNone : Prop :=
  (∀ p : List Byte,
    (parse p = .error (.invalidInputLength p.length) ∧ ∀ bs, parse p ≠ .ok bs) ∨
    ∃ bs, parse p = .ok bs ∧ 64 * bs.length = p.length ∧
      ∀ i < bs.length, bs[i]? = (blocksOf ((p.drop (64 * i)).take 64))[0]?) ∧
  (∀ p : List Byte, p.length = 65 → parse p = .error (.invalidInputLength 65)) ∧
  parse [] = .ok []

/-- R126: putting the words of the blocks back as bytes, in order, gives the buffer; two different buffers of one valid
length parse to different block sequences. -/
def Obligations.ParseLosesNoByte : Prop :=
  (∀ (p : List Byte) (bs : List Block), parse p = .ok bs →
    bs.flatMap (fun b => b.toList.flatMap fun x => beBytes 4 x.toNat) = p) ∧
  (∀ (p q : List Byte) (bs : List Block), parse p = .ok bs → parse q = .ok bs → p = q)

/-- From R127: in S_PADDED, with the buffers in form and a whole number of blocks in PB, PARSE writes BLK, NBLK and
STAGE, and nothing else; outside S_PADDED it is refused, whatever PLEN is (R197). The effects on STAGE are the spec's
decision D4 (log 21): derived. -/
def Obligations.ParseWritesBlocks : Prop :=
  (∀ s : State, s.stage = .padded → Memory.wf s → s.plen % 64 = 0 →
    exec .parse s = .next { s with blk := blocksOf s.pb, nblk := s.plen / 64, stage := .parsed }) ∧
  (∀ s : State, s.stage ≠ .padded → exec .parse s = .refused (.notAdmitted "PARSE"))

/-- From R193, with R190 and R127: in S_PADDED a PB that is not a whole number of blocks makes PARSE take
InvalidInputLength: ERR and STAGE are written and nothing else, so PB and PLEN keep the offending buffer. The two writes
are the spec's decisions D5 and D6 (log 11, log 21): derived. -/
def Obligations.ParseTakesInvalidInputLength : Prop :=
  ∀ s : State, s.stage = .padded → Memory.wf s → s.plen % 64 ≠ 0 →
    exec .parse s = .next { s with err := true, stage := .failed }

/-- From R191: the cause is the length of the padded buffer alone. No operation but PARSE raises ERR, and PARSE only on the
condition on PLEN, by that operation itself; two states in S_PADDED with one PLEN both raise it or neither does. That the
exception shows as ERR is the spec's decision D5 (log 21): derived. -/
def Obligations.ErrCauseIsLengthAlone : Prop :=
  (∀ (i : Instr) (s t : State), exec i s = .next t → s.err = false → t.err = true →
    i = .parse ∧ s.plen % 64 ≠ 0) ∧
  (∀ s s' : State, s.stage = .padded → s'.stage = .padded → Memory.wf s → Memory.wf s' → s.err = false →
    s'.err = false → s.plen = s'.plen →
    ((∃ t, exec .parse s = .next t ∧ t.err = true) ↔ ∃ t', exec .parse s' = .next t' ∧ t'.err = true))

/-- From R206 and R107 (derived there): a PARSE that follows PAD never raises the exception, for both values of
ALIGNED_SKIP. -/
def Obligations.ParseAfterPadSucceeds : Prop :=
  ∀ (cfg : Config) (s : State), s.stage = .msg → Memory.wf s →
    ∃ t u, padOp cfg s = .next t ∧ t.err = s.err ∧ execParse t = .next u ∧ u.stage = .parsed ∧ u.err = s.err ∧
      u.blk = blocksOf (padded cfg s.msg)

/-! ## The Compressor (43_compressor.md) -/

/-- From R136: INIT writes `H0` to H and PHASE, and nothing else; it is admitted once per message. The condition on STAGE
is the spec's decision D4, the values of `H0` are from general knowledge (log 2, log 21): derived. -/
def Obligations.InitWritesH0 : Prop :=
  (∀ s : State, s.stage = .parsed → s.phase = .uninitialized →
    exec .init s = .next { s with
      H := #v[some 0x6a09e667, some 0xbb67ae85, some 0x3c6ef372, some 0xa54ff53a, some 0x510e527f, some 0x9b05688c,
              some 0x1f83d9ab, some 0x5be0cd19]
      phase := .initialized }) ∧
  (∀ s : State, s.stage ≠ .parsed ∨ s.phase ≠ .uninitialized → exec .init s = .refused (.notAdmitted "INIT"))

/-- From R137: SCHED builds the schedule by its recurrence, in both rows of R135 that admit it, reads H not at all, and writes
W, US and PHASE (from Initialized) and nothing else; its corner case and its example. The identifier and US are the spec's
decisions D3 and D23 (log 21): derived. -/
def Obligations.SchedBuildsSchedule : Prop :=
  (∀ i : Instr, i = .sched → (encode i).opid = 0x31 ∧ formatOf i = .uop) ∧
  (∀ (b : Block) (t : Nat) (h : t < 16), (schedule b)[t] = b[t]) ∧
  (∀ (b : Block) (t : Nat) (h16 : 16 ≤ t) (h : t < 64),
    (schedule b)[t] =
      ssigma1 (schedule b)[t - 2] + (schedule b)[t - 7] + ssigma0 (schedule b)[t - 15] + (schedule b)[t - 16]) ∧
  (∀ (s : State) (b : Block), s.stage = .parsed → s.phase = .initialized → s.readBlk 0 = some b →
    exec .sched s = .next { s with W := cellsOf (schedule b), phase := .processing 0, us := .load }) ∧
  (∀ (s : State) (i : Nat) (b : Block), s.stage = .parsed → s.phase = .processing i → s.us = .sched →
    s.readBlk i = some b → exec .sched s = .next { s with W := cellsOf (schedule b), us := .load }) ∧
  (∀ s : State, admitted Config.chip .sched s = false → exec .sched s = .refused (.notAdmitted "SCHED")) ∧
  schedule (Vector.replicate 16 0) = Vector.replicate 64 0 ∧
  (schedule abcBlock)[16] = 0x61626380 ∧ (schedule abcBlock)[17] = 0x000f0000 ∧
  (schedule abcBlock)[18] = 0x7da86405 ∧ (schedule abcBlock)[19] = 0x600003c6 ∧
  (schedule abcBlock)[63] = 0x12b1edeb

/-- From R138: LOAD copies H to a .. h simultaneously and moves US to round 0; H is not changed. In every state a run can
be in, what it loads is `H0` for block 0 and the chaining value that the blocks before left for a later one. The values
of `H0` are from general knowledge (log 2), the identifier and US are decisions D3 and D23 (log 21): derived. -/
def Obligations.LoadCopiesHashState : Prop :=
  (encode .load).opid = 0x32 ∧ formatOf .load = .uop ∧
  (∀ (s : State) (i : Nat) (h : Words8), s.stage = .parsed → s.phase = .processing i → s.us = .load →
    s.H = cellsOf h → exec .load s = .next { s with R := cellsOf h, us := .round 0 }) ∧
  (∀ (s t : State) (i : Nat), HashInv Config.chip s → s.phase = .processing i → exec .load s = .next t →
    t.R = cellsOf (chain s.blk i) ∧ chain s.blk 0 = H0) ∧
  (∀ s : State, admitted Config.chip .load s = false → exec .load s = .refused (.notAdmitted "LOAD")) ∧
  H0 = #v[0x6a09e667, 0xbb67ae85, 0x3c6ef372, 0xa54ff53a, 0x510e527f, 0x9b05688c, 0x1f83d9ab, 0x5be0cd19]

/-- From R139, with R140 and R146: ROUND computes `T1` and `T2` from the registers before it, `K[t]` and `W[t]` of its own
`t`, writes all eight registers from the values before it, and moves US on; nothing else changes; its example. The values
of `H0` and `K` in the example are logs 2 and 18, the identifier and US are decisions D3 and D23 (log 21): derived. -/
def Obligations.RoundUpdatesWorkingRegisters : Prop :=
  (encode .round).opid = 0x33 ∧ formatOf .round = .uop ∧
  (∀ (s : State) (i : Nat) (t : Fin 64) (a b c d e f g h w T1 T2 : Word),
    s.stage = .parsed → s.phase = .processing i → s.us = .round t →
    s.R = cellsOf #v[a, b, c, d, e, f, g, h] → s.W[t] = some w →
    T1 = h + lsigma1 e + ch e f g + K[t] + w → T2 = lsigma0 a + maj a b c →
    exec .round s = .next { s with
      R := cellsOf #v[T1 + T2, a, b, c, d + T1, e, f, g]
      us := if h : t.val < 63 then .round ⟨t.val + 1, by omega⟩ else .fold }) ∧
  (∀ s : State, admitted Config.chip .round s = false → exec .round s = .refused (.notAdmitted "ROUND")) ∧
  round K[0] 0x61626380 H0 =
    #v[0x5d6aebcd, 0x6a09e667, 0xbb67ae85, 0x3c6ef372, 0xfa2a4622, 0x510e527f, 0x9b05688c, 0x1f83d9ab] ∧
  roundT1 K[0] 0x61626380 H0 = 0x54da50e8 ∧ roundT2 H0 = 0x08909ae5

/-- From R141: FOLD adds a .. h to H element-wise, ends the lifetime of W and a .. h, and goes to the next block, or to
Finalized after the last; nothing else changes. That W and a .. h hold NOVAL afterwards is the spec's decision D24
(log 21): derived. -/
def Obligations.FoldAccumulates : Prop :=
  (∀ (s : State) (i : Nat) (h r h' : Words8), s.stage = .parsed → s.phase = .processing i → s.us = .fold →
    s.H = cellsOf h → s.R = cellsOf r → (∀ j : Fin 8, h'[j].toNat = (h[j].toNat + r[j].toNat) % 2 ^ 32) →
    (i + 1 < s.nblk → exec .fold s = .next { s with
      H := cellsOf h', W := noval 64, R := noval 8, phase := .processing (i + 1), us := .sched }) ∧
    (i + 1 = s.nblk → exec .fold s = .next { s with
      H := cellsOf h', W := noval 64, R := noval 8, phase := .finalized, us := .sched })) ∧
  (∀ s : State, admitted Config.chip .fold s = false → exec .fold s = .refused (.notAdmitted "FOLD"))

/-- From R142: COMPRESS is the transition of one block as a function of the chaining value and the block, with
`compress(Hin, B)[j] = (Hin[j] + R[j]) mod 2^32` after 64 rounds; it writes H, PHASE and US, and leaves W and a .. h
without a value. Derived, as the atomic step is there. -/
def Obligations.CompressIsBlockTransition : Prop :=
  (∀ (s : State) (i : Nat) (h : Words8) (b : Block), s.stage = .parsed →
    (s.phase = .initialized ∧ i = 0 ∨ s.phase = .processing i ∧ s.us = .sched) →
    s.H = cellsOf h → s.readBlk i = some b →
    exec .compress s = .next { s with
      H := cellsOf (compress h b), W := noval 64, R := noval 8, us := .sched
      phase := if i + 1 < s.nblk then .processing (i + 1) else .finalized }) ∧
  (∀ (h : Words8) (b : Block) (j : Fin 8), (compress h b)[j].toNat =
    (h[j].toNat + (roundsUpTo (schedule b) h 64 (by omega))[j].toNat) % 2 ^ 32) ∧
  (∀ s : State, admitted Config.chip .compress s = false → exec .compress s = .refused (.notAdmitted "COMPRESS"))

/-- From R142 and R74: the 67 micro-operations, issued one by one on the port, end as COMPRESS does (derived there). -/
def Obligations.CompressEqualsMicroOps : Prop :=
  ∀ (s : State) (rest : List Command), admitted Config.chip .compress s = true →
    Host.Core.run core 67 { s with port := microOps.map encode ++ rest } =
      exec .compress { s with port := rest }

/-- From R144: FINAL enters Finalized when there is no block, and writes PHASE only. The operation is the spec's
decision D26 (log 21): derived. -/
def Obligations.FinalWithNoBlock : Prop :=
  (∀ s : State, s.stage = .parsed → s.phase = .initialized → s.nblk = 0 →
    exec .final s = .next { s with phase := .finalized }) ∧
  (∀ s : State, s.stage ≠ .parsed ∨ s.phase ≠ .initialized ∨ s.nblk ≠ 0 →
    exec .final s = .refused (.notAdmitted "FINAL"))

/-- R143: blocks are processed in order, each once: from Initialized, one COMPRESS per block ends in Finalized with the
left fold of `compress` over the block list from the words of H (`H0` after INIT), and after fewer of them H is the fold
over the blocks so far; at the end the digest is that of the fold over all of them. -/
def Obligations.BlocksFoldInOrder : Prop :=
  ∀ (s : State) (h : Words8) (k : Nat), s.stage = .parsed → s.phase = .initialized → s.H = cellsOf h →
    s.nblk = s.blk.length → 1 ≤ k → k ≤ s.nblk →
    ∃ t, repeatOp (exec .compress) k s = .next t ∧ t.H = cellsOf ((s.blk.take k).foldl compress h) ∧
      t.phase = (if k < s.nblk then .processing k else .finalized) ∧ t.blk = s.blk ∧
      (k = s.nblk → t.digestPort = some (digestBytes (s.blk.foldl compress h)))

/-- R149: nothing but H passes from one block to the next: two states that agree on STAGE, PHASE, US, the blocks and H,
whatever W and a .. h hold, come through COMPRESS to the same H, PHASE and US. -/
def Obligations.OnlyHPassesBetweenBlocks : Prop :=
  ∀ (s s' t : State), s.stage = s'.stage → s.phase = s'.phase → s.us = s'.us → s.blk = s'.blk → s.nblk = s'.nblk →
    s.H = s'.H → exec .compress s = .next t →
    ∃ t', exec .compress s' = .next t' ∧ t'.H = t.H ∧ t'.phase = t.phase ∧ t'.us = t.us

/-! ## The top level (44_top.md) -/

/-- From R170: LOADMSG takes the whole message, computes BITLEN itself, and writes MSG, MLEN, BITLEN and STAGE, nothing
else; refused outside S_EMPTY, and for a message outside the domain. For every configuration and for this hardware. The
computation of BITLEN is the spec's decision D10, the capacity of this hardware the model's choice (log 5): derived. -/
def Obligations.LoadmsgTakesWholeMessage : Prop :=
  (∀ (cfg : Config) (s : State) (m : List Byte), s.stage = .empty → m.length ≤ cfg.msgMaxBytes →
    8 * m.length < 2 ^ 64 →
    loadMsgOp cfg m s =
      .next { s with msg := m, mlen := m.length, bitlen := BitVec.ofNat 64 (8 * m.length), stage := .msg }) ∧
  (∀ (s : State) (m : List Byte), s.stage = .empty → 8 * m.length < 2 ^ 64 →
    ∃ t, exec (.loadmsg m) s = .next t ∧ t.bitlen.toNat = 8 * m.length ∧
      t = { s with msg := m, mlen := m.length, bitlen := t.bitlen, stage := .msg }) ∧
  (∀ (cfg : Config) (s : State) (m : List Byte), s.stage ≠ .empty →
    loadMsgOp cfg m s = .refused (.notAdmitted "LOADMSG")) ∧
  (∀ (cfg : Config) (s : State) (m : List Byte), s.stage = .empty →
    cfg.msgMaxBytes < m.length ∨ 2 ^ 64 ≤ 8 * m.length → loadMsgOp cfg m s = .refused (.messageTooLong m.length)) ∧
  (∀ (s : State) (m : List Byte), s.stage ≠ .empty → exec (.loadmsg m) s = .refused (.notAdmitted "LOADMSG"))

/-- From R179: LOADPB puts a byte sequence of any length in PB from S_EMPTY; MSG, MLEN and BITLEN stay as they are. The
operation is the spec's decision D22 (log 21): derived. -/
def Obligations.LoadpbTakesAnyLength : Prop :=
  (∀ (s : State) (p : List Byte), s.stage = .empty →
    exec (.loadpb p) s = .next { s with pb := p, plen := p.length, stage := .padded }) ∧
  (∀ (s : State) (p : List Byte), s.stage ≠ .empty → exec (.loadpb p) s = .refused (.notAdmitted "LOADPB"))

/-- From R171 and R27: CLEAR is admitted in every state and leaves the reset state; the operations the host has yet to
issue stay. What CLEAR writes is the spec's decision D16, the port the model's own field (log 12, log 21): derived. -/
def Obligations.ClearIsReset : Prop :=
  ∀ s : State, exec .clear s = .next { State.reset with port := s.port }

/-- From R26: the state after reset, and the only operations admitted in it. The values are the spec's decision D7
(log 21): derived. -/
def Obligations.ResetState : Prop :=
  State.reset.stage = .empty ∧ State.reset.phase = .uninitialized ∧ State.reset.us = .sched ∧
  State.reset.err = false ∧ State.reset.msg = [] ∧ State.reset.mlen = 0 ∧ State.reset.bitlen = 0 ∧
  State.reset.pb = [] ∧ State.reset.plen = 0 ∧ State.reset.blk = [] ∧ State.reset.nblk = 0 ∧
  State.reset.H = noval 8 ∧ State.reset.W = noval 64 ∧ State.reset.R = noval 8 ∧ State.reset.digestPort = none ∧
  (∀ i : Instr, formatOf i ≠ .fn → admitted Config.chip i State.reset = true →
    i = .clear ∨ (∃ p, i = .loadpb p) ∨ (∃ m, i = .loadmsg m) ∨ ∃ m, i = .hash m)

/-- From R172 and R173: HASH, from any state, ends in Finalized with the DIGEST port presenting `hash(m)`, for every
configuration and for this hardware; all the rest of the state is that of a run on `m` alone. That this hardware completes
on every message whose bit-length fits 64 bits rests on MSG_MAX_BYTES = 2^61 − 1, the model's choice (log 5). The
pseudo-operation is the spec's decision D17, and R173 derives the function (log 21): derived. -/
def Obligations.HashPresentsDigest : Prop :=
  (∀ (cfg : Config) (s : State) (m : List Byte), m.length ≤ cfg.msgMaxBytes → 8 * m.length < 2 ^ 64 →
    ∃ t, hashOp cfg m s = .next t ∧ t.digestPort = some (hashOf cfg m) ∧
      t = { State.reset with
        msg := m, mlen := m.length, bitlen := BitVec.ofNat 64 (8 * m.length)
        pb := padded cfg m, plen := (padded cfg m).length
        blk := blocksOf (padded cfg m), nblk := (padded cfg m).length / 64
        H := cellsOf ((blocksOf (padded cfg m)).foldl compress H0)
        phase := .finalized, stage := .parsed, port := s.port }) ∧
  (∀ (s : State) (m : List Byte), 8 * m.length < 2 ^ 64 →
    ∃ t, exec (.hash m) s = .next t ∧ t.phase = .finalized ∧ t.err = false ∧
      t.digestPort = some (hashOf Config.chip m)) ∧
  (∀ (cfg : Config) (s : State) (m : List Byte), cfg.msgMaxBytes < m.length ∨ 2 ^ 64 ≤ 8 * m.length →
    hashOp cfg m s = .refused (.messageTooLong m.length))

/-- From R172: HASH is the program `CLEAR, LOADMSG m, PAD, PARSE, INIT`, then COMPRESS once per block, issued on the
port. With ALIGNED_SKIP false there is always a block (the spec's decision D1; log 4), and with MSG_MAX_BYTES = 2^61 − 1
every message whose bit-length fits 64 bits is taken (log 5). Derived, as the pseudo-operation is the decision D17. -/
def Obligations.HashEqualsItsProgram : Prop :=
  ∀ (s : State) (m : List Byte) (rest : List Command), 8 * m.length < 2 ^ 64 →
    Host.Core.run core (5 + (m.length + 8) / 64 + 1)
        { s with port :=
          (([.clear, .loadmsg m, .pad, .parse, .init] : List Instr) ++
            List.replicate ((m.length + 8) / 64 + 1) Instr.compress).map encode ++ rest } =
      exec (.hash m) { s with port := rest }

/-- R174: the digest has 32 bytes whatever the message, and the same message gives the same digest, on this instance or
another, whatever was done before. -/
def Obligations.DigestHas32BytesAndIsDeterministic : Prop :=
  (∀ (cfg : Config) (m : List Byte), (hashOf cfg m).length = 32) ∧
  (∀ (s s' t t' : State) (m : List Byte), exec (.hash m) s = .next t → exec (.hash m) s' = .next t' →
    t.digestPort = t'.digestPort ∧ ∃ d, t.digestPort = some d ∧ d.length = 32)

/-! ## The whole machine -/

/-- From R23 and R145: in Finalized the DIGEST port presents H, big-endian, word 0 first; in every other phase it holds
no value. The second clause is the spec's decision D21 (log 21): derived. -/
def Obligations.DigestPortOnlyInFinalized : Prop :=
  (∀ (s : State) (h : Words8), s.phase = .finalized → s.H = cellsOf h →
    s.digestPort = some (beBytes 4 h[0].toNat ++ beBytes 4 h[1].toNat ++ beBytes 4 h[2].toNat ++
      beBytes 4 h[3].toNat ++ beBytes 4 h[4].toNat ++ beBytes 4 h[5].toNat ++ beBytes 4 h[6].toNat ++
      beBytes 4 h[7].toNat)) ∧
  (∀ s : State, s.phase ≠ .finalized → s.digestPort = none)

/-- From R177 and R199: an operation outside the states that admit it, or with an operand outside its domain, is refused,
in every state; and no step ends in a fault, since the block's one exception is taken as a state (R193; log 11). The
table is the spec's decision D4 (log 21): derived. -/
def Obligations.NotAdmittedIsRefused : Prop :=
  (∀ (i : Instr) (s : State), admitted Config.chip i s = false → ∃ r, exec i s = .refused r) ∧
  (∀ (s : State) (e : Fault), step s ≠ .fault e)

/-- From R177 and R25: in every state that meets the invariant, an admitted operation has a next state: it never reads a
cell that holds no value, and never beyond a buffer's end (R53). Derived, as R25 and R53 derive it. -/
def Obligations.AdmittedCompletes : Prop :=
  ∀ (i : Instr) (s : State), StateInv s → admitted Config.chip i s = true → ∃ t, exec i s = .next t

/-- The frame of every operation, from the table of R10 ("written by"): each piece of state changes only under the
operations that write it, every byte of a buffer reads as before under the others, and `port` under none. Derived: the
table includes the spec's own additions, and `fnOut` and `port` are the model's (log 6, log 8). -/
def Obligations.OnlyWritersWrite : Prop :=
  ∀ (i : Instr) (s t : State), exec i s = .next t →
    ((t.msg = s.msg ∧ t.mlen = s.mlen ∧ t.bitlen = s.bitlen ∧ ∀ a, memRead t.msg a 1 = memRead s.msg a 1) ∨
      i = .clear ∨ ∃ m, i = .loadmsg m ∨ i = .hash m) ∧
    ((t.pb = s.pb ∧ t.plen = s.plen ∧ ∀ a, memRead t.pb a 1 = memRead s.pb a 1) ∨
      i = .pad ∨ i = .clear ∨ ∃ m, i = .loadpb m ∨ i = .hash m) ∧
    ((t.blk = s.blk ∧ t.nblk = s.nblk) ∨ i = .parse ∨ i = .clear ∨ ∃ m, i = .hash m) ∧
    (t.W = s.W ∨ i = .sched ∨ i = .fold ∨ i = .compress ∨ i = .clear ∨ ∃ m, i = .hash m) ∧
    (t.H = s.H ∨ i = .init ∨ i = .fold ∨ i = .compress ∨ i = .clear ∨ ∃ m, i = .hash m) ∧
    (t.R = s.R ∨ i = .load ∨ i = .round ∨ i = .fold ∨ i = .compress ∨ i = .clear ∨ ∃ m, i = .hash m) ∧
    (t.phase = s.phase ∨ i = .init ∨ i = .sched ∨ i = .fold ∨ i = .final ∨ i = .compress ∨ i = .clear ∨
      ∃ m, i = .hash m) ∧
    (t.us = s.us ∨ i = .sched ∨ i = .load ∨ i = .round ∨ i = .fold ∨ i = .compress ∨ i = .clear ∨
      ∃ m, i = .hash m) ∧
    (t.stage = s.stage ∨ i = .pad ∨ i = .parse ∨ i = .clear ∨ ∃ m, i = .loadmsg m ∨ i = .loadpb m ∨ i = .hash m) ∧
    (t.err = s.err ∨ i = .parse ∨ i = .clear ∨ ∃ m, i = .hash m) ∧
    (t.fnOut = s.fnOut ∨ formatOf i = .fn ∨ i = .clear ∨ ∃ m, i = .hash m) ∧
    t.port = s.port

/-- R48: between the operation that writes a buffer and the next CLEAR (HASH begins with one) nothing writes it: MSG from
LOADMSG, PB from PAD or LOADPB, BLK from PARSE; and in every state a run can be in, with PB written, the first MLEN bytes
of PB are the message. -/
def Obligations.BuffersImmutableUntilClear : Prop :=
  (∀ (i : Instr) (s t : State), exec i s = .next t → i ≠ .clear → (∀ m, i ≠ .hash m) →
    (s.stage ≠ .empty → t.msg = s.msg) ∧
    (s.stage = .padded ∨ s.stage = .parsed ∨ s.stage = .failed → t.pb = s.pb) ∧
    (s.stage = .parsed → t.blk = s.blk)) ∧
  (∀ s : State, HashInv Config.chip s → s.stage = .padded ∨ s.stage = .parsed ∨ s.stage = .failed →
    s.pb.take s.mlen = s.msg)

/-- R194: a failed run stays failed until CLEAR (or HASH, which begins with it): every other operation that has a next
state leaves S_FAILED and ERR as they are, and there is never a digest there, nor the end of a successful run. -/
def Obligations.FailedStaysFailed : Prop :=
  ∀ (i : Instr) (s t : State), StateInv s → s.stage = .failed → exec i s = .next t → i ≠ .clear → (∀ m, i ≠ .hash m) →
    t.stage = .failed ∧ t.err = true ∧ s.digestPort = none ∧ t.digestPort = none ∧ succeeded t = false

/-- A step takes the host's next operation off the port, decodes it and performs it, from the state without it; with no
operation issued the state stays as it is (from R49, R26). The port is the model's (log 6): derived. -/
def Obligations.StepPerformsNextOperation : Prop :=
  (∀ (s : State) (c : Command) (rest : List Command) (i : Instr), s.port = c :: rest → decode c = .ok i →
    step s = exec i { s with port := rest }) ∧
  (∀ s : State, s.port = [] → step s = .next s)

/-- The state after reset meets both invariants. Derived: the reset values are the spec's decision D7 (log 21). -/
def Obligations.ResetMeetsInvariants : Prop :=
  StateInv State.reset ∧ HashInv Config.chip State.reset

/-- Every step keeps the invariant of the state, from every state that meets it: the buffers in form, STAGE, PHASE and US
in agreement with what the registers and buffers hold, ERR set exactly in S_FAILED. Derived: STAGE, US, ERR and NOVAL
rest on the spec's decisions D4 to D8, D23, D24 (log 1, log 21). -/
def Obligations.StepKeepsInv : Prop :=
  ∀ s t : State, StateInv s → step s = .next t → StateInv t

/-- Every step keeps the invariant that a run computes what the spec's functions say: at every phase H is the chaining
value of the blocks folded so far, W the schedule of the current block, a .. h its registers after the rounds done, BLK
the parse of PB, PB the padding of the message (from R143, R150, R137 to R141). Derived, as `StepKeepsInv` is. -/
def Obligations.StepKeepsHashInv : Prop :=
  ∀ s t : State, HashInv Config.chip s → step s = .next t → HashInv Config.chip t

/-- R150: running the Compressor twice on identical block sequences gives the same H at every step, and H depends on
nothing else. From two states in S_PARSED and Initialized with the same H and the same first `k` blocks, whatever the rest
of them holds (W, a .. h, US, the other buffers, the blocks after these, ERR), `k` COMPRESS complete in both and end with
the same H. From two states in S_PARSED and Uninitialized with the same first `k` blocks, whatever their H, INIT and then
`k` COMPRESS complete in both and end with the same H. In both cases, where the `k` blocks, at least one, are all the
blocks of each, both end in Finalized with the same digest. -/
def Obligations.EqualBlocksEqualHashState : Prop :=
  (∀ (s s' : State) (h : Words8) (k : Nat), s.stage = .parsed → s'.stage = .parsed →
    s.phase = .initialized → s'.phase = .initialized → s.H = cellsOf h → s'.H = cellsOf h →
    s.nblk = s.blk.length → s'.nblk = s'.blk.length → k ≤ s.nblk → k ≤ s'.nblk → s.blk.take k = s'.blk.take k →
    ∃ t t', repeatOp (exec .compress) k s = .next t ∧ repeatOp (exec .compress) k s' = .next t' ∧ t.H = t'.H ∧
      (1 ≤ k → k = s.nblk → k = s'.nblk →
        t.phase = .finalized ∧ t'.phase = .finalized ∧ t.digestPort = t'.digestPort)) ∧
  (∀ (s s' : State) (k : Nat), s.stage = .parsed → s'.stage = .parsed →
    s.phase = .uninitialized → s'.phase = .uninitialized →
    s.nblk = s.blk.length → s'.nblk = s'.blk.length → k ≤ s.nblk → k ≤ s'.nblk → s.blk.take k = s'.blk.take k →
    ∃ t t', andThen (exec .init s) (repeatOp (exec .compress) k) = .next t ∧
      andThen (exec .init s') (repeatOp (exec .compress) k) = .next t' ∧ t.H = t'.H ∧
      (1 ≤ k → k = s.nblk → k = s'.nblk →
        t.phase = .finalized ∧ t'.phase = .finalized ∧ t.digestPort = t'.digestPort))

/-- A run on a message that ends in Finalized by any sequence of operations presents `hash(m)` (from R178, R173; the
invariant carries it to the end of every run). For the empty message it is stated of HASH alone, since LOADPB leaves MSG
empty too. Derived. -/
def Obligations.FinalizedPresentsHash : Prop :=
  ∀ s : State, HashInv Config.chip s → s.phase = .finalized → s.msg ≠ [] →
    s.digestPort = some (hashOf Config.chip s.msg)
end

