-- ==== Sys2Proof/Laws/State.lean ====
section
/-! SUPPORT. What each named update of State does to each field: one lemma per field per update, true by rfl. -/

namespace Sys2Proof.Machine.State

variable (s : State)

/-! `storeMsg` -/

@[simp] theorem storeMsg_msg (m : List Byte) : (s.storeMsg m).msg = m := rfl
@[simp] theorem storeMsg_mlen (m : List Byte) : (s.storeMsg m).mlen = m.length := rfl
@[simp] theorem storeMsg_bitlen (m : List Byte) : (s.storeMsg m).bitlen = BitVec.ofNat 64 (8 * m.length) := rfl
@[simp] theorem storeMsg_pb (m : List Byte) : (s.storeMsg m).pb = s.pb := rfl
@[simp] theorem storeMsg_plen (m : List Byte) : (s.storeMsg m).plen = s.plen := rfl
@[simp] theorem storeMsg_blk (m : List Byte) : (s.storeMsg m).blk = s.blk := rfl
@[simp] theorem storeMsg_nblk (m : List Byte) : (s.storeMsg m).nblk = s.nblk := rfl
@[simp] theorem storeMsg_W (m : List Byte) : (s.storeMsg m).W = s.W := rfl
@[simp] theorem storeMsg_H (m : List Byte) : (s.storeMsg m).H = s.H := rfl
@[simp] theorem storeMsg_R (m : List Byte) : (s.storeMsg m).R = s.R := rfl
@[simp] theorem storeMsg_phase (m : List Byte) : (s.storeMsg m).phase = s.phase := rfl
@[simp] theorem storeMsg_us (m : List Byte) : (s.storeMsg m).us = s.us := rfl
@[simp] theorem storeMsg_stage (m : List Byte) : (s.storeMsg m).stage = s.stage := rfl
@[simp] theorem storeMsg_err (m : List Byte) : (s.storeMsg m).err = s.err := rfl
@[simp] theorem storeMsg_fnOut (m : List Byte) : (s.storeMsg m).fnOut = s.fnOut := rfl
@[simp] theorem storeMsg_port (m : List Byte) : (s.storeMsg m).port = s.port := rfl

/-! `storePb` -/

@[simp] theorem storePb_msg (p : List Byte) : (s.storePb p).msg = s.msg := rfl
@[simp] theorem storePb_mlen (p : List Byte) : (s.storePb p).mlen = s.mlen := rfl
@[simp] theorem storePb_bitlen (p : List Byte) : (s.storePb p).bitlen = s.bitlen := rfl
@[simp] theorem storePb_pb (p : List Byte) : (s.storePb p).pb = p := rfl
@[simp] theorem storePb_plen (p : List Byte) : (s.storePb p).plen = p.length := rfl
@[simp] theorem storePb_blk (p : List Byte) : (s.storePb p).blk = s.blk := rfl
@[simp] theorem storePb_nblk (p : List Byte) : (s.storePb p).nblk = s.nblk := rfl
@[simp] theorem storePb_W (p : List Byte) : (s.storePb p).W = s.W := rfl
@[simp] theorem storePb_H (p : List Byte) : (s.storePb p).H = s.H := rfl
@[simp] theorem storePb_R (p : List Byte) : (s.storePb p).R = s.R := rfl
@[simp] theorem storePb_phase (p : List Byte) : (s.storePb p).phase = s.phase := rfl
@[simp] theorem storePb_us (p : List Byte) : (s.storePb p).us = s.us := rfl
@[simp] theorem storePb_stage (p : List Byte) : (s.storePb p).stage = s.stage := rfl
@[simp] theorem storePb_err (p : List Byte) : (s.storePb p).err = s.err := rfl
@[simp] theorem storePb_fnOut (p : List Byte) : (s.storePb p).fnOut = s.fnOut := rfl
@[simp] theorem storePb_port (p : List Byte) : (s.storePb p).port = s.port := rfl

/-! `storeBlk` -/

@[simp] theorem storeBlk_msg (bs : List Block) : (s.storeBlk bs).msg = s.msg := rfl
@[simp] theorem storeBlk_mlen (bs : List Block) : (s.storeBlk bs).mlen = s.mlen := rfl
@[simp] theorem storeBlk_bitlen (bs : List Block) : (s.storeBlk bs).bitlen = s.bitlen := rfl
@[simp] theorem storeBlk_pb (bs : List Block) : (s.storeBlk bs).pb = s.pb := rfl
@[simp] theorem storeBlk_plen (bs : List Block) : (s.storeBlk bs).plen = s.plen := rfl
@[simp] theorem storeBlk_blk (bs : List Block) : (s.storeBlk bs).blk = bs := rfl
@[simp] theorem storeBlk_nblk (bs : List Block) : (s.storeBlk bs).nblk = bs.length := rfl
@[simp] theorem storeBlk_W (bs : List Block) : (s.storeBlk bs).W = s.W := rfl
@[simp] theorem storeBlk_H (bs : List Block) : (s.storeBlk bs).H = s.H := rfl
@[simp] theorem storeBlk_R (bs : List Block) : (s.storeBlk bs).R = s.R := rfl
@[simp] theorem storeBlk_phase (bs : List Block) : (s.storeBlk bs).phase = s.phase := rfl
@[simp] theorem storeBlk_us (bs : List Block) : (s.storeBlk bs).us = s.us := rfl
@[simp] theorem storeBlk_stage (bs : List Block) : (s.storeBlk bs).stage = s.stage := rfl
@[simp] theorem storeBlk_err (bs : List Block) : (s.storeBlk bs).err = s.err := rfl
@[simp] theorem storeBlk_fnOut (bs : List Block) : (s.storeBlk bs).fnOut = s.fnOut := rfl
@[simp] theorem storeBlk_port (bs : List Block) : (s.storeBlk bs).port = s.port := rfl

/-! `writeW` -/

@[simp] theorem writeW_msg (w : Vector Word 64) : (s.writeW w).msg = s.msg := rfl
@[simp] theorem writeW_mlen (w : Vector Word 64) : (s.writeW w).mlen = s.mlen := rfl
@[simp] theorem writeW_bitlen (w : Vector Word 64) : (s.writeW w).bitlen = s.bitlen := rfl
@[simp] theorem writeW_pb (w : Vector Word 64) : (s.writeW w).pb = s.pb := rfl
@[simp] theorem writeW_plen (w : Vector Word 64) : (s.writeW w).plen = s.plen := rfl
@[simp] theorem writeW_blk (w : Vector Word 64) : (s.writeW w).blk = s.blk := rfl
@[simp] theorem writeW_nblk (w : Vector Word 64) : (s.writeW w).nblk = s.nblk := rfl
@[simp] theorem writeW_W (w : Vector Word 64) : (s.writeW w).W = cellsOf w := rfl
@[simp] theorem writeW_H (w : Vector Word 64) : (s.writeW w).H = s.H := rfl
@[simp] theorem writeW_R (w : Vector Word 64) : (s.writeW w).R = s.R := rfl
@[simp] theorem writeW_phase (w : Vector Word 64) : (s.writeW w).phase = s.phase := rfl
@[simp] theorem writeW_us (w : Vector Word 64) : (s.writeW w).us = s.us := rfl
@[simp] theorem writeW_stage (w : Vector Word 64) : (s.writeW w).stage = s.stage := rfl
@[simp] theorem writeW_err (w : Vector Word 64) : (s.writeW w).err = s.err := rfl
@[simp] theorem writeW_fnOut (w : Vector Word 64) : (s.writeW w).fnOut = s.fnOut := rfl
@[simp] theorem writeW_port (w : Vector Word 64) : (s.writeW w).port = s.port := rfl

/-! `writeH` -/

@[simp] theorem writeH_msg (h : Words8) : (s.writeH h).msg = s.msg := rfl
@[simp] theorem writeH_mlen (h : Words8) : (s.writeH h).mlen = s.mlen := rfl
@[simp] theorem writeH_bitlen (h : Words8) : (s.writeH h).bitlen = s.bitlen := rfl
@[simp] theorem writeH_pb (h : Words8) : (s.writeH h).pb = s.pb := rfl
@[simp] theorem writeH_plen (h : Words8) : (s.writeH h).plen = s.plen := rfl
@[simp] theorem writeH_blk (h : Words8) : (s.writeH h).blk = s.blk := rfl
@[simp] theorem writeH_nblk (h : Words8) : (s.writeH h).nblk = s.nblk := rfl
@[simp] theorem writeH_W (h : Words8) : (s.writeH h).W = s.W := rfl
@[simp] theorem writeH_H (h : Words8) : (s.writeH h).H = cellsOf h := rfl
@[simp] theorem writeH_R (h : Words8) : (s.writeH h).R = s.R := rfl
@[simp] theorem writeH_phase (h : Words8) : (s.writeH h).phase = s.phase := rfl
@[simp] theorem writeH_us (h : Words8) : (s.writeH h).us = s.us := rfl
@[simp] theorem writeH_stage (h : Words8) : (s.writeH h).stage = s.stage := rfl
@[simp] theorem writeH_err (h : Words8) : (s.writeH h).err = s.err := rfl
@[simp] theorem writeH_fnOut (h : Words8) : (s.writeH h).fnOut = s.fnOut := rfl
@[simp] theorem writeH_port (h : Words8) : (s.writeH h).port = s.port := rfl

/-! `writeR` -/

@[simp] theorem writeR_msg (r : Words8) : (s.writeR r).msg = s.msg := rfl
@[simp] theorem writeR_mlen (r : Words8) : (s.writeR r).mlen = s.mlen := rfl
@[simp] theorem writeR_bitlen (r : Words8) : (s.writeR r).bitlen = s.bitlen := rfl
@[simp] theorem writeR_pb (r : Words8) : (s.writeR r).pb = s.pb := rfl
@[simp] theorem writeR_plen (r : Words8) : (s.writeR r).plen = s.plen := rfl
@[simp] theorem writeR_blk (r : Words8) : (s.writeR r).blk = s.blk := rfl
@[simp] theorem writeR_nblk (r : Words8) : (s.writeR r).nblk = s.nblk := rfl
@[simp] theorem writeR_W (r : Words8) : (s.writeR r).W = s.W := rfl
@[simp] theorem writeR_H (r : Words8) : (s.writeR r).H = s.H := rfl
@[simp] theorem writeR_R (r : Words8) : (s.writeR r).R = cellsOf r := rfl
@[simp] theorem writeR_phase (r : Words8) : (s.writeR r).phase = s.phase := rfl
@[simp] theorem writeR_us (r : Words8) : (s.writeR r).us = s.us := rfl
@[simp] theorem writeR_stage (r : Words8) : (s.writeR r).stage = s.stage := rfl
@[simp] theorem writeR_err (r : Words8) : (s.writeR r).err = s.err := rfl
@[simp] theorem writeR_fnOut (r : Words8) : (s.writeR r).fnOut = s.fnOut := rfl
@[simp] theorem writeR_port (r : Words8) : (s.writeR r).port = s.port := rfl

/-! `endBlock` -/

@[simp] theorem endBlock_msg : s.endBlock.msg = s.msg := rfl
@[simp] theorem endBlock_mlen : s.endBlock.mlen = s.mlen := rfl
@[simp] theorem endBlock_bitlen : s.endBlock.bitlen = s.bitlen := rfl
@[simp] theorem endBlock_pb : s.endBlock.pb = s.pb := rfl
@[simp] theorem endBlock_plen : s.endBlock.plen = s.plen := rfl
@[simp] theorem endBlock_blk : s.endBlock.blk = s.blk := rfl
@[simp] theorem endBlock_nblk : s.endBlock.nblk = s.nblk := rfl
@[simp] theorem endBlock_W : s.endBlock.W = noval 64 := rfl
@[simp] theorem endBlock_H : s.endBlock.H = s.H := rfl
@[simp] theorem endBlock_R : s.endBlock.R = noval 8 := rfl
@[simp] theorem endBlock_phase : s.endBlock.phase = s.phase := rfl
@[simp] theorem endBlock_us : s.endBlock.us = s.us := rfl
@[simp] theorem endBlock_stage : s.endBlock.stage = s.stage := rfl
@[simp] theorem endBlock_err : s.endBlock.err = s.err := rfl
@[simp] theorem endBlock_fnOut : s.endBlock.fnOut = s.fnOut := rfl
@[simp] theorem endBlock_port : s.endBlock.port = s.port := rfl

/-! `setPhase` -/

@[simp] theorem setPhase_msg (p : Phase) : (s.setPhase p).msg = s.msg := rfl
@[simp] theorem setPhase_mlen (p : Phase) : (s.setPhase p).mlen = s.mlen := rfl
@[simp] theorem setPhase_bitlen (p : Phase) : (s.setPhase p).bitlen = s.bitlen := rfl
@[simp] theorem setPhase_pb (p : Phase) : (s.setPhase p).pb = s.pb := rfl
@[simp] theorem setPhase_plen (p : Phase) : (s.setPhase p).plen = s.plen := rfl
@[simp] theorem setPhase_blk (p : Phase) : (s.setPhase p).blk = s.blk := rfl
@[simp] theorem setPhase_nblk (p : Phase) : (s.setPhase p).nblk = s.nblk := rfl
@[simp] theorem setPhase_W (p : Phase) : (s.setPhase p).W = s.W := rfl
@[simp] theorem setPhase_H (p : Phase) : (s.setPhase p).H = s.H := rfl
@[simp] theorem setPhase_R (p : Phase) : (s.setPhase p).R = s.R := rfl
@[simp] theorem setPhase_phase (p : Phase) : (s.setPhase p).phase = p := rfl
@[simp] theorem setPhase_us (p : Phase) : (s.setPhase p).us = s.us := rfl
@[simp] theorem setPhase_stage (p : Phase) : (s.setPhase p).stage = s.stage := rfl
@[simp] theorem setPhase_err (p : Phase) : (s.setPhase p).err = s.err := rfl
@[simp] theorem setPhase_fnOut (p : Phase) : (s.setPhase p).fnOut = s.fnOut := rfl
@[simp] theorem setPhase_port (p : Phase) : (s.setPhase p).port = s.port := rfl

/-! `setUs` -/

@[simp] theorem setUs_msg (u : MicroStep) : (s.setUs u).msg = s.msg := rfl
@[simp] theorem setUs_mlen (u : MicroStep) : (s.setUs u).mlen = s.mlen := rfl
@[simp] theorem setUs_bitlen (u : MicroStep) : (s.setUs u).bitlen = s.bitlen := rfl
@[simp] theorem setUs_pb (u : MicroStep) : (s.setUs u).pb = s.pb := rfl
@[simp] theorem setUs_plen (u : MicroStep) : (s.setUs u).plen = s.plen := rfl
@[simp] theorem setUs_blk (u : MicroStep) : (s.setUs u).blk = s.blk := rfl
@[simp] theorem setUs_nblk (u : MicroStep) : (s.setUs u).nblk = s.nblk := rfl
@[simp] theorem setUs_W (u : MicroStep) : (s.setUs u).W = s.W := rfl
@[simp] theorem setUs_H (u : MicroStep) : (s.setUs u).H = s.H := rfl
@[simp] theorem setUs_R (u : MicroStep) : (s.setUs u).R = s.R := rfl
@[simp] theorem setUs_phase (u : MicroStep) : (s.setUs u).phase = s.phase := rfl
@[simp] theorem setUs_us (u : MicroStep) : (s.setUs u).us = u := rfl
@[simp] theorem setUs_stage (u : MicroStep) : (s.setUs u).stage = s.stage := rfl
@[simp] theorem setUs_err (u : MicroStep) : (s.setUs u).err = s.err := rfl
@[simp] theorem setUs_fnOut (u : MicroStep) : (s.setUs u).fnOut = s.fnOut := rfl
@[simp] theorem setUs_port (u : MicroStep) : (s.setUs u).port = s.port := rfl

/-! `setStage` -/

@[simp] theorem setStage_msg (g : Stage) : (s.setStage g).msg = s.msg := rfl
@[simp] theorem setStage_mlen (g : Stage) : (s.setStage g).mlen = s.mlen := rfl
@[simp] theorem setStage_bitlen (g : Stage) : (s.setStage g).bitlen = s.bitlen := rfl
@[simp] theorem setStage_pb (g : Stage) : (s.setStage g).pb = s.pb := rfl
@[simp] theorem setStage_plen (g : Stage) : (s.setStage g).plen = s.plen := rfl
@[simp] theorem setStage_blk (g : Stage) : (s.setStage g).blk = s.blk := rfl
@[simp] theorem setStage_nblk (g : Stage) : (s.setStage g).nblk = s.nblk := rfl
@[simp] theorem setStage_W (g : Stage) : (s.setStage g).W = s.W := rfl
@[simp] theorem setStage_H (g : Stage) : (s.setStage g).H = s.H := rfl
@[simp] theorem setStage_R (g : Stage) : (s.setStage g).R = s.R := rfl
@[simp] theorem setStage_phase (g : Stage) : (s.setStage g).phase = s.phase := rfl
@[simp] theorem setStage_us (g : Stage) : (s.setStage g).us = s.us := rfl
@[simp] theorem setStage_stage (g : Stage) : (s.setStage g).stage = g := rfl
@[simp] theorem setStage_err (g : Stage) : (s.setStage g).err = s.err := rfl
@[simp] theorem setStage_fnOut (g : Stage) : (s.setStage g).fnOut = s.fnOut := rfl
@[simp] theorem setStage_port (g : Stage) : (s.setStage g).port = s.port := rfl

/-! `setErr` -/

@[simp] theorem setErr_msg : s.setErr.msg = s.msg := rfl
@[simp] theorem setErr_mlen : s.setErr.mlen = s.mlen := rfl
@[simp] theorem setErr_bitlen : s.setErr.bitlen = s.bitlen := rfl
@[simp] theorem setErr_pb : s.setErr.pb = s.pb := rfl
@[simp] theorem setErr_plen : s.setErr.plen = s.plen := rfl
@[simp] theorem setErr_blk : s.setErr.blk = s.blk := rfl
@[simp] theorem setErr_nblk : s.setErr.nblk = s.nblk := rfl
@[simp] theorem setErr_W : s.setErr.W = s.W := rfl
@[simp] theorem setErr_H : s.setErr.H = s.H := rfl
@[simp] theorem setErr_R : s.setErr.R = s.R := rfl
@[simp] theorem setErr_phase : s.setErr.phase = s.phase := rfl
@[simp] theorem setErr_us : s.setErr.us = s.us := rfl
@[simp] theorem setErr_stage : s.setErr.stage = s.stage := rfl
@[simp] theorem setErr_err : s.setErr.err = true := rfl
@[simp] theorem setErr_fnOut : s.setErr.fnOut = s.fnOut := rfl
@[simp] theorem setErr_port : s.setErr.port = s.port := rfl

/-! `setFnOut` -/

@[simp] theorem setFnOut_msg (r : Word) : (s.setFnOut r).msg = s.msg := rfl
@[simp] theorem setFnOut_mlen (r : Word) : (s.setFnOut r).mlen = s.mlen := rfl
@[simp] theorem setFnOut_bitlen (r : Word) : (s.setFnOut r).bitlen = s.bitlen := rfl
@[simp] theorem setFnOut_pb (r : Word) : (s.setFnOut r).pb = s.pb := rfl
@[simp] theorem setFnOut_plen (r : Word) : (s.setFnOut r).plen = s.plen := rfl
@[simp] theorem setFnOut_blk (r : Word) : (s.setFnOut r).blk = s.blk := rfl
@[simp] theorem setFnOut_nblk (r : Word) : (s.setFnOut r).nblk = s.nblk := rfl
@[simp] theorem setFnOut_W (r : Word) : (s.setFnOut r).W = s.W := rfl
@[simp] theorem setFnOut_H (r : Word) : (s.setFnOut r).H = s.H := rfl
@[simp] theorem setFnOut_R (r : Word) : (s.setFnOut r).R = s.R := rfl
@[simp] theorem setFnOut_phase (r : Word) : (s.setFnOut r).phase = s.phase := rfl
@[simp] theorem setFnOut_us (r : Word) : (s.setFnOut r).us = s.us := rfl
@[simp] theorem setFnOut_stage (r : Word) : (s.setFnOut r).stage = s.stage := rfl
@[simp] theorem setFnOut_err (r : Word) : (s.setFnOut r).err = s.err := rfl
@[simp] theorem setFnOut_fnOut (r : Word) : (s.setFnOut r).fnOut = some r := rfl
@[simp] theorem setFnOut_port (r : Word) : (s.setFnOut r).port = s.port := rfl

/-! `raiseInvalidInputLength` -/

@[simp] theorem raiseInvalidInputLength_msg : s.raiseInvalidInputLength.msg = s.msg := rfl
@[simp] theorem raiseInvalidInputLength_mlen : s.raiseInvalidInputLength.mlen = s.mlen := rfl
@[simp] theorem raiseInvalidInputLength_bitlen : s.raiseInvalidInputLength.bitlen = s.bitlen := rfl
@[simp] theorem raiseInvalidInputLength_pb : s.raiseInvalidInputLength.pb = s.pb := rfl
@[simp] theorem raiseInvalidInputLength_plen : s.raiseInvalidInputLength.plen = s.plen := rfl
@[simp] theorem raiseInvalidInputLength_blk : s.raiseInvalidInputLength.blk = s.blk := rfl
@[simp] theorem raiseInvalidInputLength_nblk : s.raiseInvalidInputLength.nblk = s.nblk := rfl
@[simp] theorem raiseInvalidInputLength_W : s.raiseInvalidInputLength.W = s.W := rfl
@[simp] theorem raiseInvalidInputLength_H : s.raiseInvalidInputLength.H = s.H := rfl
@[simp] theorem raiseInvalidInputLength_R : s.raiseInvalidInputLength.R = s.R := rfl
@[simp] theorem raiseInvalidInputLength_phase : s.raiseInvalidInputLength.phase = s.phase := rfl
@[simp] theorem raiseInvalidInputLength_us : s.raiseInvalidInputLength.us = s.us := rfl
@[simp] theorem raiseInvalidInputLength_stage : s.raiseInvalidInputLength.stage = .failed := rfl
@[simp] theorem raiseInvalidInputLength_err : s.raiseInvalidInputLength.err = true := rfl
@[simp] theorem raiseInvalidInputLength_fnOut : s.raiseInvalidInputLength.fnOut = s.fnOut := rfl
@[simp] theorem raiseInvalidInputLength_port : s.raiseInvalidInputLength.port = s.port := rfl

/-! `clear`: every field at its reset value but the port -/

@[simp] theorem clear_msg : s.clear.msg = reset.msg := rfl
@[simp] theorem clear_mlen : s.clear.mlen = reset.mlen := rfl
@[simp] theorem clear_bitlen : s.clear.bitlen = reset.bitlen := rfl
@[simp] theorem clear_pb : s.clear.pb = reset.pb := rfl
@[simp] theorem clear_plen : s.clear.plen = reset.plen := rfl
@[simp] theorem clear_blk : s.clear.blk = reset.blk := rfl
@[simp] theorem clear_nblk : s.clear.nblk = reset.nblk := rfl
@[simp] theorem clear_W : s.clear.W = reset.W := rfl
@[simp] theorem clear_H : s.clear.H = reset.H := rfl
@[simp] theorem clear_R : s.clear.R = reset.R := rfl
@[simp] theorem clear_phase : s.clear.phase = reset.phase := rfl
@[simp] theorem clear_us : s.clear.us = reset.us := rfl
@[simp] theorem clear_stage : s.clear.stage = reset.stage := rfl
@[simp] theorem clear_err : s.clear.err = reset.err := rfl
@[simp] theorem clear_fnOut : s.clear.fnOut = reset.fnOut := rfl
@[simp] theorem clear_port : s.clear.port = s.port := rfl

/-! `reset`: the values of 10_state.md R26 -/

@[simp] theorem reset_msg : reset.msg = [] := rfl
@[simp] theorem reset_mlen : reset.mlen = 0 := rfl
@[simp] theorem reset_bitlen : reset.bitlen = 0 := rfl
@[simp] theorem reset_pb : reset.pb = [] := rfl
@[simp] theorem reset_plen : reset.plen = 0 := rfl
@[simp] theorem reset_blk : reset.blk = [] := rfl
@[simp] theorem reset_nblk : reset.nblk = 0 := rfl
@[simp] theorem reset_W : reset.W = noval 64 := rfl
@[simp] theorem reset_H : reset.H = noval 8 := rfl
@[simp] theorem reset_R : reset.R = noval 8 := rfl
@[simp] theorem reset_phase : reset.phase = .uninitialized := rfl
@[simp] theorem reset_us : reset.us = .sched := rfl
@[simp] theorem reset_stage : reset.stage = .empty := rfl
@[simp] theorem reset_err : reset.err = false := rfl
@[simp] theorem reset_fnOut : reset.fnOut = none := rfl
@[simp] theorem reset_port : reset.port = [] := rfl

end Sys2Proof.Machine.State
end

