-- ==== Sys2Proof/Laws/Buffers.lean ====
section
/-! SUPPORT. The form of the buffers: the state after reset has it, and every operation over the buffers and the register
files keeps it. -/

namespace Sys2Proof.Machine

variable {s : State}

theorem wf_reset : Memory.wf State.reset := by decide

theorem wf_clear (s : State) : Memory.wf s.clear := ⟨rfl, rfl, rfl, rfl⟩

/-- A message in the domain keeps the form: its bit-length fits the 64 bits of BITLEN. -/
theorem wf_storeMsg {m : List Byte} (hm : 8 * m.length < 2 ^ 64) (h : Memory.wf s) : Memory.wf (s.storeMsg m) := by
  refine ⟨rfl, ?_, h.2.2.1, h.2.2.2⟩
  rw [State.storeMsg_bitlen, State.storeMsg_mlen, BitVec.toNat_ofNat, Nat.mod_eq_of_lt hm]

theorem wf_storePb (p : List Byte) (h : Memory.wf s) : Memory.wf (s.storePb p) := ⟨h.1, h.2.1, rfl, h.2.2.2⟩

theorem wf_storeBlk (bs : List Block) (h : Memory.wf s) : Memory.wf (s.storeBlk bs) := ⟨h.1, h.2.1, h.2.2.1, rfl⟩

theorem wf_writeW (w : Vector Word 64) (h : Memory.wf s) : Memory.wf (s.writeW w) := h

theorem wf_writeH (w : Words8) (h : Memory.wf s) : Memory.wf (s.writeH w) := h

theorem wf_writeR (w : Words8) (h : Memory.wf s) : Memory.wf (s.writeR w) := h

theorem wf_endBlock (h : Memory.wf s) : Memory.wf s.endBlock := h

theorem wf_setStage (g : Stage) (h : Memory.wf s) : Memory.wf (s.setStage g) := h

theorem wf_setPhase (p : Phase) (h : Memory.wf s) : Memory.wf (s.setPhase p) := h

theorem wf_setUs (u : MicroStep) (h : Memory.wf s) : Memory.wf (s.setUs u) := h

theorem wf_setErr (h : Memory.wf s) : Memory.wf s.setErr := h

theorem wf_setFnOut (r : Word) (h : Memory.wf s) : Memory.wf (s.setFnOut r) := h

theorem wf_raiseInvalidInputLength (h : Memory.wf s) : Memory.wf s.raiseInvalidInputLength := h

/-- Writing bytes inside a buffer keeps its length, so it keeps the form. -/
theorem memWrite_length {buf : List Byte} {k n v : Nat} (h : k + n ≤ buf.length) :
    (memWrite buf k n v).length = buf.length := by
  simp [memWrite, beBytes]; omega

end Sys2Proof.Machine
end

