-- ==== Sys2Proof/Laws/Ops.lean ====
section
/-! SUPPORT. What each shared operation can do, said once: register files, buffers, byte order, sequencing, the port. -/

namespace Sys2Proof.Machine

/-! ## Register files -/

variable {n : Nat}

@[simp] theorem cellsOf_getElem (v : Vector Word n) (j : Nat) (h : j < n) : (cellsOf v)[j] = some v[j] := by
  simp [cellsOf]

@[simp] theorem noval_getElem (j : Nat) (h : j < n) : (noval n)[j] = none := by
  simp [noval]

theorem cellsOf_injective {v w : Vector Word n} (h : cellsOf v = cellsOf w) : v = w := by
  ext1 j hj
  have hc : (cellsOf v)[j] = (cellsOf w)[j] := by rw [h]
  simpa using hc

@[simp] theorem allHold_cellsOf (v : Vector Word n) : AllHold (cellsOf v) := fun j => by simp

@[simp] theorem noneHolds_noval : NoneHolds (noval n) := fun j => by simp

/-- A file in which every register holds a word is the file of those words. -/
theorem exists_cellsOf_of_allHold {v : Cells n} (h : AllHold v) : ∃ w, v = cellsOf w :=
  ⟨Vector.ofFn fun j => (v[j]).get (h j), by ext1 j hj; simp⟩

/-- A file in which no register holds a word is NOVAL throughout. -/
theorem eq_noval_of_noneHolds {v : Cells n} (h : NoneHolds v) : v = noval n := by
  ext1 j hj
  simpa using h ⟨j, hj⟩

/-- Reading a file answers its words exactly when every register holds one. -/
theorem readCells_eq_some {v : Cells n} {w : Vector Word n} : readCells v = some w ↔ v = cellsOf w := by
  unfold readCells
  constructor
  · intro h
    split at h
    · cases h; ext1 j hj; simp
    · cases h
  · rintro rfl
    rw [dif_pos fun j => by simp, Option.some.injEq]
    ext1 j hj; simp

@[simp] theorem readCells_cellsOf (w : Vector Word n) : readCells (cellsOf w) = some w :=
  readCells_eq_some.mpr rfl

/-! ## Buffers -/

@[simp] theorem prefixBytes_length (p : List Byte) : prefixBytes p p.length = some p := by
  simp [prefixBytes]

/-- A prefix has the length asked for and is the front of the buffer. -/
theorem prefixBytes_eq_some {p q : List Byte} {k : Nat} :
    prefixBytes p k = some q ↔ k ≤ p.length ∧ q = p.take k := by
  unfold prefixBytes
  split <;> simp_all [eq_comm]

/-- A block is read exactly when its index is below NBLK and the list holds it. -/
theorem State.readBlk_eq_some {s : State} {i : Nat} {b : Block} :
    s.readBlk i = some b ↔ i < s.nblk ∧ s.blk[i]? = some b := by
  unfold State.readBlk
  split <;> simp_all

/-! ## Byte order -/

@[simp] theorem beBytes_length (k v : Nat) : (beBytes k v).length = k := by simp [beBytes]

@[simp] theorem beBytes_getElem (k v q : Nat) (h : q < (beBytes k v).length) :
    (beBytes k v)[q] = BitVec.ofNat 8 (v / 256 ^ (k - 1 - q)) := by simp [beBytes]

theorem fromBe_append (s t : List Byte) : fromBe (s ++ t) = fromBe s * 256 ^ t.length + fromBe t := by
  have aux : ∀ (t : List Byte) (a : Nat),
      t.foldl (fun acc b => acc * 256 + b.toNat) a = a * 256 ^ t.length + fromBe t := by
    intro t
    induction t with
    | nil => intro a; simp [fromBe]
    | cons b t ih =>
      intro a
      have h1 := ih (a * 256 + b.toNat)
      have h2 := ih (0 * 256 + b.toNat)
      simp only [fromBe, List.foldl_cons, List.length_cons, pow_succ] at *
      rw [h1, h2]; ring
  unfold fromBe
  rw [List.foldl_append, aux]
  rfl

@[simp] theorem fromBe_nil : fromBe [] = 0 := rfl

@[simp] theorem fromBe_singleton (b : Byte) : fromBe [b] = b.toNat := by simp [fromBe]

theorem fromBe_cons (b : Byte) (s : List Byte) : fromBe (b :: s) = b.toNat * 256 ^ s.length + fromBe s := by
  simpa using fromBe_append [b] s

/-- A big-endian number on `|s|` bytes is below `256^|s|`. -/
theorem fromBe_lt (s : List Byte) : fromBe s < 256 ^ s.length := by
  induction s with
  | nil => simp
  | cons b s ih =>
    rw [fromBe_cons, List.length_cons, pow_succ]
    have : b.toNat < 256 := b.isLt
    calc b.toNat * 256 ^ s.length + fromBe s < b.toNat * 256 ^ s.length + 256 ^ s.length := by omega
      _ = (b.toNat + 1) * 256 ^ s.length := by ring
      _ ≤ 256 * 256 ^ s.length := Nat.mul_le_mul_right _ (by omega)
      _ = 256 ^ s.length * 256 := by ring

theorem beBytes_succ (k v : Nat) : beBytes (k + 1) v = BitVec.ofNat 8 (v / 256 ^ k) :: beBytes k v := by
  simp only [beBytes, List.range_succ_eq_map, List.map_cons, List.map_map]
  congr 1
  apply List.map_congr_left
  intro q hq
  simp only [Function.comp, Nat.succ_eq_add_one]
  congr 3
  omega

/-- The bytes of a number make the number again, modulo what they can hold. -/
theorem fromBe_beBytes (k v : Nat) : fromBe (beBytes k v) = v % 256 ^ k := by
  induction k with
  | zero => simp [beBytes, Nat.mod_one]
  | succ k ih =>
    rw [beBytes_succ, fromBe_cons, ih, beBytes_length, pow_succ, BitVec.toNat_ofNat, Nat.mod_mul]
    ring

/-- The bytes of the number that some bytes make are those bytes. -/
theorem beBytes_fromBe (s : List Byte) : beBytes s.length (fromBe s) = s := by
  induction s with
  | nil => rfl
  | cons b s ih =>
    have hlt := fromBe_lt s
    have hpos : 0 < 256 ^ s.length := by positivity
    rw [List.length_cons, beBytes_succ, fromBe_cons]
    congr 1
    · rw [Nat.add_comm, Nat.add_mul_div_right _ _ hpos, Nat.div_eq_of_lt hlt]; simp
    · rw [← ih]
      apply List.ext_getElem <;> simp only [beBytes_length]
      intro q h1 h2
      simp only [beBytes_getElem]
      rw [ih]
      obtain ⟨d, hd⟩ : ∃ d, s.length = (s.length - 1 - q) + 1 + d := ⟨q, by omega⟩
      apply BitVec.eq_of_toNat_eq
      have key : (b.toNat * 256 ^ s.length + fromBe s) / 256 ^ (s.length - 1 - q) =
          fromBe s / 256 ^ (s.length - 1 - q) + b.toNat * 256 ^ d * 256 := by
        have : b.toNat * 256 ^ s.length = b.toNat * 256 ^ d * 256 * 256 ^ (s.length - 1 - q) := by
          conv_lhs => rw [hd, pow_add, pow_add]
          ring
        rw [this, Nat.add_comm, Nat.add_mul_div_right _ _ (by positivity)]
      simp only [BitVec.toNat_ofNat, key]
      omega

/-! ## Outcomes -/

@[simp] theorem andThen_next (s : State) (f : State → Result) : andThen (.next s) f = f s := rfl

@[simp] theorem andThen_refused (r : Refusal) (f : State → Result) : andThen (.refused r) f = .refused r := rfl

@[simp] theorem andThen_fault (r : Fault) (f : State → Result) : andThen (.fault r) f = .fault r := rfl

/-- A sequence answers a next state exactly when its first part does and its second part does from there. -/
theorem andThen_eq_next {r : Result} {f : State → Result} {t : State} :
    andThen r f = .next t ↔ ∃ u, r = .next u ∧ f u = .next t := by
  cases r <;> simp

theorem andThen_assoc (r : Result) (f g : State → Result) :
    andThen (andThen r f) g = andThen r fun s => andThen (f s) g := by
  cases r <;> rfl

@[simp] theorem repeatOp_zero (f : State → Result) (s : State) : repeatOp f 0 s = .next s := rfl

theorem repeatOp_succ (f : State → Result) (k : Nat) (s : State) :
    repeatOp f (k + 1) s = andThen (f s) (repeatOp f k) := rfl

/-- Repeating an operation keeps what one performance of it keeps. -/
theorem repeatOp_keeps {f : State → Result} {P : State → Prop} (hf : ∀ s t, P s → f s = .next t → P t) :
    ∀ k s t, P s → repeatOp f k s = .next t → P t := by
  intro k
  induction k with
  | zero => intro s t hs h; cases h; exact hs
  | succ k ih =>
    intro s t hs h
    obtain ⟨u, hu, h⟩ := andThen_eq_next.mp h
    exact ih u t (hf s u hs hu) h

end Sys2Proof.Machine
end

