-- ==== Sys2Proof/Laws/Exec.lean ====
section
/-! SUPPORT. What each operation can do, said once: if it answers a next state, then it was admitted and the next state
is this one. -/

namespace Sys2Proof.Machine

variable {s t : State}

theorem giveWord_next {r : Word} (h : giveWord r s = .next t) : t = s.setFnOut r := by
  cases h; rfl

theorem execRotr_next {n : Nat} {x : Word} (h : execRotr n x s = .next t) :
    n ≤ 31 ∧ t = s.setFnOut (rotr n x) := by
  unfold execRotr at h
  split at h
  · exact ⟨‹_›, giveWord_next h⟩
  · cases h

theorem execShr_next {n : Nat} {x : Word} (h : execShr n x s = .next t) :
    n ≤ 31 ∧ t = s.setFnOut (shr n x) := by
  unfold execShr at h
  split at h
  · exact ⟨‹_›, giveWord_next h⟩
  · cases h

/-- The function `pad` answers a buffer only in its domain, and then the padded buffer. -/
theorem pad_ok {cfg : Config} {m p : List Byte} {n : Nat} (h : pad cfg m n = .ok p) :
    n = 8 * m.length ∧ n < 2 ^ 64 ∧ p = padded cfg m := by
  unfold pad at h
  split at h
  · cases h
  · split at h
    · cases h
    · cases h
      simp_all [BitLengthOk]

theorem padOp_next {cfg : Config} (h : padOp cfg s = .next t) :
    s.stage = .msg ∧ s.mlen ≤ s.msg.length ∧ s.bitlen.toNat = 8 * (s.msg.take s.mlen).length ∧
      t = (s.storePb (padded cfg (s.msg.take s.mlen))).setStage .padded := by
  unfold padOp at h
  split at h
  · split at h
    · cases h
    · rename_i hs _ m hm
      obtain ⟨hle, rfl⟩ := prefixBytes_eq_some.mp hm
      split at h
      · cases h
      · rename_i p hp
        obtain ⟨hn, -, rfl⟩ := pad_ok hp
        cases h
        exact ⟨hs, hle, hn, rfl⟩
  · cases h

theorem execParse_next (h : execParse s = .next t) :
    s.stage = .padded ∧ s.plen ≤ s.pb.length ∧
      (s.plen % 64 ≠ 0 ∧ t = s.raiseInvalidInputLength ∨
        s.plen % 64 = 0 ∧ t = (s.storeBlk (blocksOf (s.pb.take s.plen))).setStage .parsed) := by
  unfold execParse at h
  split at h
  · split at h
    · cases h
    · rename_i hs _ p hp
      obtain ⟨hle, rfl⟩ := prefixBytes_eq_some.mp hp
      have hl : (s.pb.take s.plen).length = s.plen := by simpa using hle
      unfold parse at h
      rw [hl] at h
      refine ⟨hs, hle, ?_⟩
      by_cases h0 : s.plen % 64 = 0
      · simp only [h0, ne_eq, not_true_eq_false, ↓reduceIte] at h
        cases h
        exact .inr ⟨h0, rfl⟩
      · simp only [h0, ne_eq, not_false_eq_true, ↓reduceIte] at h
        cases h
        exact .inl ⟨h0, rfl⟩
  · cases h

theorem execInit_next (h : execInit s = .next t) :
    s.stage = .parsed ∧ s.phase = .uninitialized ∧ t = (s.writeH H0).setPhase .initialized := by
  unfold execInit at h
  split at h
  · rename_i hs; cases h; exact ⟨hs.1, hs.2, rfl⟩
  · cases h

theorem schedBlock_next {i : Nat} (h : schedBlock i s = .next t) :
    ∃ b, i < s.nblk ∧ s.blk[i]? = some b ∧ t = ((s.writeW (schedule b)).setPhase (.processing i)).setUs .load := by
  unfold schedBlock at h
  split at h
  · cases h
  · rename_i b hb
    obtain ⟨hi, hb⟩ := State.readBlk_eq_some.mp hb
    cases h
    exact ⟨b, hi, hb, rfl⟩

theorem execSched_next (h : execSched s = .next t) :
    s.stage = .parsed ∧ ∃ i b, (s.phase = .initialized ∧ i = 0 ∨ s.phase = .processing i ∧ s.us = .sched) ∧
      i < s.nblk ∧ s.blk[i]? = some b ∧ t = ((s.writeW (schedule b)).setPhase (.processing i)).setUs .load := by
  unfold execSched at h
  split at h
  · rename_i hs
    refine ⟨hs, ?_⟩
    split at h
    · rename_i hp
      split at h
      · obtain ⟨b, hb⟩ := schedBlock_next h
        exact ⟨0, b, .inl ⟨hp, rfl⟩, hb⟩
      · cases h
    · rename_i i hp hu
      obtain ⟨b, hb⟩ := schedBlock_next h
      exact ⟨i, b, .inr ⟨hp, hu⟩, hb⟩
    · cases h
  · cases h

theorem execLoad_next (h : execLoad s = .next t) :
    s.stage = .parsed ∧ ∃ i w, s.phase = .processing i ∧ s.us = .load ∧ s.H = cellsOf w ∧
      t = (s.writeR w).setUs (.round 0) := by
  unfold execLoad at h
  split at h
  · rename_i hs
    refine ⟨hs, ?_⟩
    split at h
    · rename_i i hp hu
      split at h
      · cases h
      · rename_i w hw
        cases h
        exact ⟨i, w, hp, hu, readCells_eq_some.mp hw, rfl⟩
    · cases h
  · cases h

theorem execRound_next (h : execRound s = .next t) :
    s.stage = .parsed ∧ ∃ i k r w, s.phase = .processing i ∧ s.us = .round k ∧ s.R = cellsOf r ∧ s.W[k] = some w ∧
      t = (s.writeR (round K[k] w r)).setUs (afterRound k) := by
  unfold execRound at h
  split at h
  · rename_i hs
    refine ⟨hs, ?_⟩
    split at h
    · rename_i i k hp hu
      split at h
      · rename_i r w hr hw
        cases h
        exact ⟨i, k, r, w, hp, hu, readCells_eq_some.mp hr, hw, rfl⟩
      · cases h
      · cases h
    · cases h
  · cases h

theorem execFold_next (h : execFold s = .next t) :
    s.stage = .parsed ∧ ∃ i x r, s.phase = .processing i ∧ s.us = .fold ∧ s.H = cellsOf x ∧ s.R = cellsOf r ∧
      i < s.nblk ∧ t = (((s.writeH (foldWords x r)).endBlock).setUs .sched).setPhase
        (if i + 1 < s.nblk then .processing (i + 1) else .finalized) := by
  unfold execFold at h
  split at h
  · rename_i hs
    refine ⟨hs, ?_⟩
    split at h
    · rename_i i hp hu
      split at h
      · rename_i x r hx hr
        dsimp only at h
        refine ⟨i, x, r, hp, hu, readCells_eq_some.mp hx, readCells_eq_some.mp hr, ?_⟩
        split at h
        · cases h
          exact ⟨by omega, by rw [if_pos ‹_›]⟩
        · split at h
          · cases h
            exact ⟨by omega, by rw [if_neg ‹_›]⟩
          · cases h
      · cases h
      · cases h
    · cases h
  · cases h

theorem execFinal_next (h : execFinal s = .next t) :
    s.stage = .parsed ∧ s.phase = .initialized ∧ s.nblk = 0 ∧ t = s.setPhase .finalized := by
  unfold execFinal at h
  split at h
  · rename_i hs; cases h; exact ⟨hs.1, hs.2.1, hs.2.2, rfl⟩
  · cases h

theorem execCompress_next (h : execCompress s = .next t) : compressBlock s = .next t := by
  unfold execCompress at h
  split at h
  · split at h
    · split at h
      · exact h
      · cases h
    · exact h
    · cases h
  · cases h

/-- COMPRESS is its micro-operations in a row. -/
theorem compressBlock_next (h : compressBlock s = .next t) :
    ∃ u v w, execSched s = .next u ∧ execLoad u = .next v ∧ repeatOp execRound 64 v = .next w ∧
      execFold w = .next t := by
  unfold compressBlock at h
  simp only [andThen_eq_next] at h
  obtain ⟨w, ⟨v, ⟨u, hu, hv⟩, hw⟩, ht⟩ := h
  exact ⟨u, v, w, hu, hv, hw, ht⟩

theorem loadMsgOp_next {cfg : Config} {m : List Byte} (h : loadMsgOp cfg m s = .next t) :
    s.stage = .empty ∧ MessageOk cfg m ∧ t = (s.storeMsg m).setStage .msg := by
  unfold loadMsgOp at h
  split at h
  · split at h
    · rename_i hs hm; cases h; exact ⟨hs, hm, rfl⟩
    · cases h
  · cases h

theorem execLoadpb_next {p : List Byte} (h : execLoadpb p s = .next t) :
    s.stage = .empty ∧ t = (s.storePb p).setStage .padded := by
  unfold execLoadpb at h
  split at h
  · rename_i hs; cases h; exact ⟨hs, rfl⟩
  · cases h

/-- HASH is its program: the parts before the compressor, then INIT and FINAL or COMPRESS, unless PARSE failed. -/
theorem hashOp_next {cfg : Config} {m : List Byte} (h : hashOp cfg m s = .next t) :
    MessageOk cfg m ∧ ∃ u v w, loadMsgOp cfg m s.clear = .next u ∧ padOp cfg u = .next v ∧
      execParse v = .next w ∧ hashBlocks w = .next t := by
  unfold hashOp at h
  split at h
  · rename_i hm
    refine ⟨hm, ?_⟩
    simp only [andThen_eq_next, execClear] at h
    obtain ⟨w, ⟨v, ⟨u, ⟨c, hc, hu⟩, hv⟩, hw⟩, ht⟩ := h
    cases hc
    exact ⟨u, v, w, hu, hv, hw, ht⟩
  · cases h

theorem hashBlocks_next (h : hashBlocks s = .next t) :
    s.stage = .failed ∧ t = s ∨
      s.stage ≠ .failed ∧ ∃ u, execInit s = .next u ∧
        (u.nblk = 0 ∧ execFinal u = .next t ∨ u.nblk ≠ 0 ∧ repeatOp execCompress u.nblk u = .next t) := by
  unfold hashBlocks at h
  split at h
  · cases h; exact .inl ⟨‹_›, rfl⟩
  · obtain ⟨u, hu, h⟩ := andThen_eq_next.mp h
    refine .inr ⟨‹_›, u, hu, ?_⟩
    split at h
    · exact .inl ⟨‹_›, h⟩
    · exact .inr ⟨‹_›, h⟩

/-- What a step can do: nothing when the port is empty, else the operation its next command decodes to, from the state
without that command. -/
theorem step_next (h : step s = .next t) :
    s.port = [] ∧ t = s ∨
      ∃ c rest i, s.port = c :: rest ∧ decode c = .ok i ∧ exec i { s with port := rest } = .next t := by
  unfold step State.takeCommand at h
  cases hp : s.port with
  | nil => rw [hp] at h; cases h; exact .inl ⟨rfl, rfl⟩
  | cons c rest =>
    rw [hp] at h
    dsimp only at h
    split at h
    · cases h
    · rename_i i hi
      exact .inr ⟨c, rest, i, rfl, hi, h⟩

end Sys2Proof.Machine
end

