-- ==== Sys2Proof/Laws/Functions.lean ====
section
/-! SUPPORT. The small facts about the functions of the three units: lengths, the schedule's prefixes, the rounds. -/

namespace Sys2Proof.Machine

/-! ## The Padder -/

theorem zeroFill_lt (len : Nat) : zeroFill len < 64 := by unfold zeroFill; omega

theorem zeroFill_mod (len : Nat) : (len + 1 + zeroFill len) % 64 = 56 := by unfold zeroFill; omega

@[simp] theorem appendPadding_length (m : List Byte) :
    (appendPadding m).length = m.length + 1 + zeroFill m.length + 8 := by
  simp [appendPadding]; omega

/-- The padded buffer of a message is a whole number of 64-byte blocks. -/
theorem padded_length_mod (cfg : Config) (m : List Byte) : (padded cfg m).length % 64 = 0 := by
  unfold padded
  split
  · rename_i h; omega
  · have := zeroFill_mod m.length
    rw [appendPadding_length]; omega

/-! ## The Block Parser -/

@[simp] theorem blocksOf_length (p : List Byte) : (blocksOf p).length = p.length / 64 := by simp [blocksOf]

theorem blocksOf_getElem? (p : List Byte) (i : Nat) :
    (blocksOf p)[i]? = if i < p.length / 64 then some (blockAt p i) else none := by
  unfold blocksOf
  split <;> rename_i h <;> simp [h]

/-- A buffer of whole blocks parses to its blocks. -/
theorem parse_ok {p : List Byte} (h : p.length % 64 = 0) : parse p = .ok (blocksOf p) := by simp [parse, h]

/-! ## The table K -/

/-- Word `t` of K stands at column `t mod 4` of row `t / 4` of the printed table. -/
theorem K_getElem (t : Nat) (h : t < 64) : K[t] = kRows[t / 4].extractLsb' (32 * (3 - t % 4)) 32 := by
  simp [K]

/-! ## The Compressor -/

theorem scheduleUpTo_succ (b : Block) (n : Nat) :
    scheduleUpTo b (n + 1) = (scheduleUpTo b n).push (scheduleNext (scheduleUpTo b n)) := rfl

/-- Building more of the schedule leaves the entries built so far. -/
theorem scheduleUpTo_getElem_add (b : Block) (n k t : Nat) (h : t < 16 + n) :
    (scheduleUpTo b (n + k))[t]'(by omega) = (scheduleUpTo b n)[t] := by
  induction k with
  | zero => rfl
  | succ k ih =>
    rw [← ih]
    exact Vector.getElem_push_lt (xs := scheduleUpTo b (n + k)) (by omega)

/-- An entry of the schedule is the entry of any long enough prefix of it. -/
theorem schedule_getElem (b : Block) (n t : Nat) (hn : n ≤ 48) (h : t < 16 + n) :
    (schedule b)[t]'(by omega) = (scheduleUpTo b n)[t] := by
  have aux : ∀ k m (hm : n + k = m), (scheduleUpTo b m)[t]'(by omega) = (scheduleUpTo b n)[t] := by
    rintro k m rfl
    exact scheduleUpTo_getElem_add b n k t h
  exact aux (48 - n) 48 (by omega)

/-- The newest entry of a prefix is the next word of the prefix before it. -/
theorem scheduleUpTo_newest (b : Block) (n : Nat) :
    (scheduleUpTo b (n + 1))[16 + n] = scheduleNext (scheduleUpTo b n) :=
  Vector.getElem_push_eq

@[simp] theorem roundsUpTo_zero (w : Vector Word 64) (r : Words8) (h : 0 ≤ 64) : roundsUpTo w r 0 h = r := rfl

theorem roundsUpTo_succ (w : Vector Word 64) (r : Words8) (t : Nat) (h : t + 1 ≤ 64) :
    roundsUpTo w r (t + 1) h = round K[t] w[t] (roundsUpTo w r t (by omega)) := rfl

theorem afterRound_last : afterRound 63 = .fold := rfl

theorem afterRound_lt {t : Fin 64} (h : t.val + 1 < 64) : afterRound t = .round ⟨t.val + 1, h⟩ := by
  simp [afterRound, h]

theorem afterRound_eq (t : Fin 64) :
    (∃ h : t.val + 1 < 64, afterRound t = .round ⟨t.val + 1, h⟩) ∨ t.val + 1 = 64 ∧ afterRound t = .fold := by
  unfold afterRound
  split
  · exact .inl ⟨‹_›, rfl⟩
  · exact .inr ⟨by omega, rfl⟩

/-- The state after the chaining value has been folded over a block more. -/
theorem chain_succ {bs : List Block} {i : Nat} {b : Block} (h : bs[i]? = some b) :
    chain bs (i + 1) = compress (chain bs i) b := by
  simp [chain, List.take_add_one, h]

@[simp] theorem chain_zero (bs : List Block) : chain bs 0 = H0 := rfl

end Sys2Proof.Machine
end

