-- ==== Sys2Proof/Laws/PerInstr.lean ====
section
/-! SUPPORT. Statements made of every instruction as syntax, one lemma per constructor. -/

namespace Sys2Proof.Laws.OpidUnit

open Sys2Proof

/-- The unit of an operation, as the upper nibble of its identifier spells it (30_encoding.md R60): 0 the logic unit,
1 the Padder, 2 the Block Parser, 3 the Compressor, 4 the top level. -/
def unitOf (i : Instr) : Nat :=
  match i with
  | .add32 _ _ => 0
  | .rotr _ _ => 0
  | .shr _ _ => 0
  | .ssigma0 _ => 0
  | .ssigma1 _ => 0
  | .lsigma0 _ => 0
  | .lsigma1 _ => 0
  | .ch _ _ _ => 0
  | .maj _ _ _ => 0
  | .pad => 1
  | .parse => 2
  | .init => 3
  | .sched => 3
  | .load => 3
  | .round => 3
  | .fold => 3
  | .final => 3
  | .compress => 3
  | .clear => 4
  | .loadmsg _ => 4
  | .loadpb _ => 4
  | .hash _ => 4

/-- The upper nibble of the identifier is the operation's unit, and the identifier decodes back to the operation. -/
def Statement (i : Instr) : Prop := (encode i).opid.toNat / 16 = unitOf i ∧ decode (encode i) = .ok i

theorem add32 (x y : Word) : Statement (.add32 x y) :=
  ⟨by simp [encode, opidCommand, unitOf], rfl⟩

theorem rotr (n : Nat) (x : Word) : Statement (.rotr n x) :=
  ⟨by simp [encode, opidCommand, unitOf], rfl⟩

theorem shr (n : Nat) (x : Word) : Statement (.shr n x) :=
  ⟨by simp [encode, opidCommand, unitOf], rfl⟩

theorem ssigma0 (x : Word) : Statement (.ssigma0 x) :=
  ⟨by simp [encode, opidCommand, unitOf], rfl⟩

theorem ssigma1 (x : Word) : Statement (.ssigma1 x) :=
  ⟨by simp [encode, opidCommand, unitOf], rfl⟩

theorem lsigma0 (x : Word) : Statement (.lsigma0 x) :=
  ⟨by simp [encode, opidCommand, unitOf], rfl⟩

theorem lsigma1 (x : Word) : Statement (.lsigma1 x) :=
  ⟨by simp [encode, opidCommand, unitOf], rfl⟩

theorem ch (x y z : Word) : Statement (.ch x y z) :=
  ⟨by simp [encode, opidCommand, unitOf], rfl⟩

theorem maj (x y z : Word) : Statement (.maj x y z) :=
  ⟨by simp [encode, opidCommand, unitOf], rfl⟩

theorem pad : Statement .pad :=
  ⟨by simp [encode, opidCommand, unitOf], rfl⟩

theorem parse : Statement .parse :=
  ⟨by simp [encode, opidCommand, unitOf], rfl⟩

theorem init : Statement .init :=
  ⟨by simp [encode, opidCommand, unitOf], rfl⟩

theorem sched : Statement .sched :=
  ⟨by simp [encode, opidCommand, unitOf], rfl⟩

theorem load : Statement .load :=
  ⟨by simp [encode, opidCommand, unitOf], rfl⟩

theorem round : Statement .round :=
  ⟨by simp [encode, opidCommand, unitOf], rfl⟩

theorem fold : Statement .fold :=
  ⟨by simp [encode, opidCommand, unitOf], rfl⟩

theorem final : Statement .final :=
  ⟨by simp [encode, opidCommand, unitOf], rfl⟩

theorem compress : Statement .compress :=
  ⟨by simp [encode, opidCommand, unitOf], rfl⟩

theorem clear : Statement .clear :=
  ⟨by simp [encode, opidCommand, unitOf], rfl⟩

theorem loadmsg (m : List Byte) : Statement (.loadmsg m) :=
  ⟨by simp [encode, opidCommand, unitOf], rfl⟩

theorem loadpb (p : List Byte) : Statement (.loadpb p) :=
  ⟨by simp [encode, opidCommand, unitOf], rfl⟩

theorem hash (m : List Byte) : Statement (.hash m) :=
  ⟨by simp [encode, opidCommand, unitOf], rfl⟩

end Sys2Proof.Laws.OpidUnit
end

