-- ==== Sys2Proof/Tests/Slice0.lean ====
section
/-! SUPPORT. The model's own tests: the well-formedness checks, the decoding of each identifier written out in bits, one
step of each operation against the vectors of 95_test_vectors.md, and states that meet the hypotheses of the statements.
-/

namespace Sys2Proof.Tests

open Sys2Proof Sys2Proof.Machine

-- One theorem after another: each kernel check in a thread of its own can exhaust the threads the sandbox has.
set_option Elab.async false

/-! ## Small states -/

/-- What a next state shows, `none` for a stop. -/
def shown {α : Type} (r : Result) (f : State → α) : Option α :=
  match r with
  | .next t => some (f t)
  | .fault _ => none
  | .refused _ => none

/-- Why an operation was refused, `none` when it was not. -/
def refusedWith (r : Result) : Option Refusal :=
  match r with
  | .next _ => none
  | .fault _ => none
  | .refused e => some e

/-- The word an operation of format FN gives. -/
def word (i : Instr) : Option Word := (shown (exec i State.reset) State.fnOut).join

def abc : List Byte := [0x61, 0x62, 0x63]

/-- The 56 bytes "abcdbcdecdefdefgefghfghighijhijkijkljklmklmnlmnomnopnopq". -/
def twoBlocks : List Byte :=
  (List.range 14).flatMap fun i => (List.range 4).map fun j => BitVec.ofNat 8 (0x61 + i + j)

/-- A message loaded. -/
def msgState (m : List Byte) : State := (State.reset.storeMsg m).setStage .msg

/-- A padded buffer placed by LOADPB. -/
def pbState (p : List Byte) : State := (State.reset.storePb p).setStage .padded

/-- A message loaded and padded. -/
def paddedState (m : List Byte) : State := ((msgState m).storePb (appendPadding m)).setStage .padded

/-- A message loaded, padded and parsed. -/
def parsedState (m : List Byte) : State :=
  ((paddedState m).storeBlk (blocksOf (appendPadding m))).setStage .parsed

/-- The same, at a phase, with a hash state. -/
def phaseState (m : List Byte) (h : Words8) (p : Phase) : State := ((parsedState m).writeH h).setPhase p

/-- The parser's output of the empty buffer. -/
def noBlockState : State := ((pbState []).storeBlk []).setStage .parsed

/-- A PARSE that failed on 65 bytes. -/
def failedState : State := (pbState (List.replicate 65 0xff)).raiseInvalidInputLength

/-- "abc", the schedule built. -/
def loadState : State := ((phaseState abc H0 (.processing 0)).writeW (schedule abcBlock)).setUs .load

/-- "abc", at a round, with these working registers. -/
def roundState (t : Fin 64) (r : Words8) : State := (loadState.writeR r).setUs (.round t)

/-- "abc", with these working registers after the last round. -/
def foldState (r : Words8) : State := (loadState.writeR r).setUs .fold

/-- The registers after round 62 and 63 of "abc" (95_test_vectors.md section 5). -/
def regs62 : Words8 :=
  #v[0xd39a2165, 0x04d24d6c, 0xb85e2ce9, 0xb6ae8fff, 0xfb121210, 0x948d25b6, 0x961f4894, 0xb21bad3d]

def regs63 : Words8 :=
  #v[0x506e3058, 0xd39a2165, 0x04d24d6c, 0xb85e2ce9, 0x5ef50f24, 0xfb121210, 0x948d25b6, 0x961f4894]

/-- The hash state after the block of "abc" (95_test_vectors.md section 5). -/
def abcHash : Words8 :=
  #v[0xba7816bf, 0x8f01cfea, 0x414140de, 0x5dae2223, 0xb00361a3, 0x96177a9c, 0xb410ff61, 0xf20015ad]

/-! ## Well-formedness: a term that each check refuses -/

theorem test_wellFormed_rotr_amount : Instr.wellFormed Config.chip (.rotr 32 0) = false := by decide

theorem test_wellFormed_shr_amount : Instr.wellFormed Config.chip (.shr 32 0) = false := by decide

theorem test_wellFormed_loadmsg_capacity : Instr.wellFormed ⟨false, 2⟩ (.loadmsg abc) = false := by decide

theorem test_wellFormed_hash_capacity : Instr.wellFormed ⟨false, 2⟩ (.hash abc) = false := by decide

theorem test_wellFormed_loadmsg_bits :
    Instr.wellFormed ⟨false, 2 ^ 62⟩ (.loadmsg (List.replicate (2 ^ 61) 0)) = false := by
  simp only [Instr.wellFormed, MessageOk, List.length_replicate, decide_eq_false_iff_not]
  omega

theorem test_wellFormed_hash_bits :
    Instr.wellFormed ⟨false, 2 ^ 62⟩ (.hash (List.replicate (2 ^ 61) 0)) = false := by
  simp only [Instr.wellFormed, MessageOk, List.length_replicate, decide_eq_false_iff_not]
  omega

theorem test_wellFormed_boundary :
    Instr.wellFormed Config.chip (.rotr 31 0) = true ∧ Instr.wellFormed Config.chip (.shr 0 0) = true ∧
      Instr.wellFormed ⟨false, 3⟩ (.loadmsg abc) = true := by decide

theorem test_config_ok : Config.Ok Config.chip := by decide

/-! ## Decoding: each identifier of 30_encoding.md R69 written out in bits, every operand input set -/

/-- A command with every operand input set. -/
def cmd (opid : Byte) : Command := { opid := opid, amount := 7, x := 0x11, y := 0x22, z := 0x33, bytes := abc }

theorem test_decode_add32 : decode (cmd 0b00000000) = .ok (.add32 0x11 0x22) := rfl
theorem test_decode_rotr : decode (cmd 0b00000001) = .ok (.rotr 7 0x11) := rfl
theorem test_decode_shr : decode (cmd 0b00000010) = .ok (.shr 7 0x11) := rfl
theorem test_decode_ssigma0 : decode (cmd 0b00000011) = .ok (.ssigma0 0x11) := rfl
theorem test_decode_ssigma1 : decode (cmd 0b00000100) = .ok (.ssigma1 0x11) := rfl
theorem test_decode_lsigma0 : decode (cmd 0b00000101) = .ok (.lsigma0 0x11) := rfl
theorem test_decode_lsigma1 : decode (cmd 0b00000110) = .ok (.lsigma1 0x11) := rfl
theorem test_decode_ch : decode (cmd 0b00000111) = .ok (.ch 0x11 0x22 0x33) := rfl
theorem test_decode_maj : decode (cmd 0b00001000) = .ok (.maj 0x11 0x22 0x33) := rfl
theorem test_decode_pad : decode (cmd 0b00010000) = .ok .pad := rfl
theorem test_decode_parse : decode (cmd 0b00100000) = .ok .parse := rfl
theorem test_decode_init : decode (cmd 0b00110000) = .ok .init := rfl
theorem test_decode_sched : decode (cmd 0b00110001) = .ok .sched := rfl
theorem test_decode_load : decode (cmd 0b00110010) = .ok .load := rfl
theorem test_decode_round : decode (cmd 0b00110011) = .ok .round := rfl
theorem test_decode_fold : decode (cmd 0b00110100) = .ok .fold := rfl
theorem test_decode_final : decode (cmd 0b00110101) = .ok .final := rfl
theorem test_decode_compress : decode (cmd 0b00111111) = .ok .compress := rfl
theorem test_decode_clear : decode (cmd 0b01000000) = .ok .clear := rfl
theorem test_decode_loadmsg : decode (cmd 0b01000001) = .ok (.loadmsg abc) := rfl
theorem test_decode_loadpb : decode (cmd 0b01000010) = .ok (.loadpb abc) := rfl
theorem test_decode_hash : decode (cmd 0b01001111) = .ok (.hash abc) := rfl

/-- Identifiers beside those of each unit, and the all-ones one (30_encoding.md R70). -/
theorem test_decode_rejects :
    decode (cmd 0b00001001) = .error (.unknownOpid 0x09) ∧ decode (cmd 0b00010001) = .error (.unknownOpid 0x11) ∧
    decode (cmd 0b00110110) = .error (.unknownOpid 0x36) ∧ decode (cmd 0b01000011) = .error (.unknownOpid 0x43) ∧
    decode (cmd 0b01010000) = .error (.unknownOpid 0x50) ∧ decode (cmd 0b11111111) = .error (.unknownOpid 0xff) :=
  ⟨rfl, rfl, rfl, rfl, rfl, rfl⟩

/-! ## The logic unit (95_test_vectors.md section 2) -/

theorem test_add32_wraps : word (.add32 0xfa2a4622 0x510e527f) = some 0x4b3898a1 := by decide
theorem test_add32_no_sign : word (.add32 0x7fffffff 1) = some 0x80000000 := by decide
theorem test_rotr_word : word (.rotr 13 0x12345678) = some 0xb3c091a2 := by decide
theorem test_rotr_amount_refused :
    refusedWith (exec (.rotr 32 1) State.reset) = some (.amountOutOfRange 32) := by decide
theorem test_shr_word : word (.shr 31 0x80000000) = some 0x00000001 := by decide
theorem test_shr_amount_refused :
    refusedWith (exec (.shr 32 1) State.reset) = some (.amountOutOfRange 32) := by decide
theorem test_ssigma0_ones : word (.ssigma0 0xffffffff) = some 0x1fffffff := by decide
theorem test_ssigma0_word : word (.ssigma0 0xdeadbeef) = some 0xabd31b0b := by decide
theorem test_ssigma1_ones : word (.ssigma1 0xffffffff) = some 0x003fffff := by decide
theorem test_ssigma1_word : word (.ssigma1 0xdeadbeef) = some 0x689dbfec := by decide
theorem test_lsigma0_word : word (.lsigma0 0xdeadbeef) = some 0xb62e25ac := by decide
theorem test_lsigma0_alternating : word (.lsigma0 0xaaaaaaaa) = some 0x55555555 := by decide
theorem test_lsigma1_word : word (.lsigma1 0xdeadbeef) = some 0x345e14a3 := by decide
theorem test_lsigma1_alternating : word (.lsigma1 0xaaaaaaaa) = some 0xaaaaaaaa := by decide
theorem test_ch_word : word (.ch 0xdeadbeef 0xdeadbeef 0x01234567) = some 0xdfafffef := by decide
theorem test_ch_second : word (.ch 0xfa2a4622 0x510e527f 0x9b05688c) = some 0x510f6aae := by decide
theorem test_maj_word : word (.maj 0xffffffff 0x12345678 0x9abcdef0) = some 0x9abcdef8 := by decide
theorem test_maj_second : word (.maj 0xfa2a4622 0x510e527f 0x9b05688c) = some 0xdb0e422e := by decide

/-! ## The Padder and the Block Parser (95_test_vectors.md sections 3 and 4) -/

/-- "abc" pads to its three bytes, `0x80`, 52 zero bytes and the bit-length 24. -/
theorem test_pad_abc :
    shown (exec .pad (msgState abc)) (fun t => (t.pb, t.plen, t.stage)) =
      some ([0x61, 0x62, 0x63, 0x80] ++ List.replicate 52 0 ++ [0, 0, 0, 0, 0, 0, 0, 0x18], 64, .padded) := by
  decide +kernel

/-- 56 bytes pad into two blocks: the terminator at offset 56, the bit-length 448 at the end. -/
theorem test_pad_two_blocks :
    shown (exec .pad (msgState twoBlocks)) (fun t => (t.plen, t.pb[55]?, t.pb[56]?, t.pb.drop 120)) =
      some (128, some 0x71, some 0x80, [0, 0, 0, 0, 0, 0, 0x01, 0xc0]) := by
  decide +kernel

/-- The bytes `00 01 .. 3f` are one block: the byte at the lowest offset is the most significant. -/
theorem test_parse_words :
    shown (exec .parse (pbState ((List.range 64).map (BitVec.ofNat 8)))) (fun t => (t.nblk, t.stage, t.blk)) =
      some (1, .parsed, [#v[0x00010203, 0x04050607, 0x08090a0b, 0x0c0d0e0f, 0x10111213, 0x14151617, 0x18191a1b,
        0x1c1d1e1f, 0x20212223, 0x24252627, 0x28292a2b, 0x2c2d2e2f, 0x30313233, 0x34353637, 0x38393a3b,
        0x3c3d3e3f]]) := by
  decide +kernel

/-- 65 bytes raise the exception: ERR and S_FAILED, PLEN kept, no block (60_exceptions.md R193). -/
theorem test_parse_raises :
    shown (exec .parse (pbState (List.replicate 65 0xff))) (fun t => (t.err, t.stage, t.plen, t.nblk)) =
      some (true, .failed, 65, 0) := by
  decide +kernel

/-- The two values of ALIGNED_SKIP on 64 bytes and on none (95_test_vectors.md section 3). -/
theorem test_padded_alignedSkip :
    padded ⟨true, 100⟩ (List.replicate 64 0x61) = List.replicate 64 0x61 ∧ padded ⟨true, 100⟩ [] = [] ∧
      (padded ⟨false, 100⟩ (List.replicate 64 0x61)).length = 128 := by
  decide +kernel

/-! ## The Compressor (95_test_vectors.md section 5) -/

theorem test_init_H0 :
    shown (exec .init (parsedState abc)) (fun t => (t.H[0], t.H[7], t.phase)) =
      some (some 0x6a09e667, some 0x5be0cd19, .initialized) := by
  decide +kernel

theorem test_init_once :
    refusedWith (exec .init (phaseState abc H0 .initialized)) = some (.notAdmitted "INIT") := by decide +kernel

theorem test_sched_words :
    shown (exec .sched (phaseState abc H0 .initialized)) (fun t => (t.W[0], t.W[20], t.W[63], t.phase, t.us)) =
      some (some 0x61626380, some 0x3e9d7b78, some 0x12b1edeb, .processing 0, .load) := by
  decide +kernel

theorem test_sched_no_block :
    refusedWith (exec .sched ((noBlockState.writeH H0).setPhase .initialized)) = some (.notAdmitted "SCHED") := by
  decide +kernel

theorem test_load_registers :
    shown (exec .load loadState) (fun t => (t.R[0], t.R[7], t.us)) =
      some (some 0x6a09e667, some 0x5be0cd19, .round 0) := by
  decide +kernel

theorem test_load_refused : refusedWith (exec .load (roundState 0 H0)) = some (.notAdmitted "LOAD") := by decide +kernel

theorem test_round_first :
    shown (exec .round (roundState 0 H0)) (fun t => (t.R, t.us)) =
      some (cellsOf #v[0x5d6aebcd, 0x6a09e667, 0xbb67ae85, 0x3c6ef372, 0xfa2a4622, 0x510e527f, 0x9b05688c,
        0x1f83d9ab], .round 1) := by
  decide +kernel

theorem test_round_last :
    shown (exec .round (roundState 63 regs62)) (fun t => (t.R, t.us)) = some (cellsOf regs63, .fold) := by
  decide +kernel

/-- The last block's FOLD ends in Finalized, and W and a .. h hold no value. -/
theorem test_fold_last :
    shown (exec .fold (foldState regs63)) (fun t => (t.H, t.phase, t.us, t.W[0], t.R[0])) =
      some (cellsOf abcHash, .finalized, .sched, none, none) := by
  decide +kernel

/-- After the first of two blocks, the next block is due (95_test_vectors.md section 6). -/
theorem test_fold_first_of_two :
    shown (exec .fold ((((phaseState twoBlocks H0 (.processing 0)).writeW (Vector.replicate 64 0)).writeR
        #v[0x1bdc6f6f, 0x86126910, 0xf6f443f8, 0xbcfce922, 0x25d2430a, 0x2fc08f85, 0xacc75916, 0x962d8621]).setUs .fold))
      (fun t => (t.H, t.phase)) =
      some (cellsOf #v[0x85e655d6, 0x417a1795, 0x3363376a, 0x624cde5c, 0x76e09589, 0xcac5f811, 0xcc4b32c1, 0xf20e533a],
        .processing 1) := by
  decide +kernel

theorem test_final_no_block :
    shown (exec .final ((noBlockState.writeH H0).setPhase .initialized)) (fun t => (t.H, t.phase)) =
      some (cellsOf H0, .finalized) := by
  decide +kernel

theorem test_final_refused :
    refusedWith (exec .final (phaseState abc H0 .initialized)) = some (.notAdmitted "FINAL") := by decide +kernel

theorem test_compress_abc :
    shown (exec .compress (phaseState abc H0 .initialized)) (fun t => (t.H, t.phase)) =
      some (cellsOf abcHash, .finalized) := by
  decide +kernel

theorem test_compress_refused :
    refusedWith (exec .compress (phaseState abc abcHash .finalized)) = some (.notAdmitted "COMPRESS") := by
  decide +kernel

/-! ## The top level (95_test_vectors.md sections 1 and 8) -/

theorem test_clear_after_failure : shown (exec .clear failedState) id = some State.reset := by decide +kernel

theorem test_clear_keeps_port :
    shown (exec .clear { failedState with port := [cmd 0x10] }) (fun t => (t.port, t.err, t.plen)) =
      some ([cmd 0x10], false, 0) := by
  decide +kernel

theorem test_loadmsg_abc :
    shown (exec (.loadmsg abc) State.reset) (fun t => (t.msg, t.mlen, t.bitlen, t.stage)) =
      some (abc, 3, 24, .msg) := by
  decide +kernel

theorem test_loadmsg_second : refusedWith (exec (.loadmsg abc) (msgState abc)) = some (.notAdmitted "LOADMSG") := by
  decide +kernel

theorem test_loadpb_any_length :
    shown (exec (.loadpb (List.replicate 65 0xff)) State.reset) (fun t => (t.plen, t.mlen, t.stage)) =
      some (65, 0, .padded) := by
  decide +kernel

theorem test_loadpb_refused : refusedWith (exec (.loadpb []) failedState) = some (.notAdmitted "LOADPB") := by
  decide +kernel

/-- The known answer of the empty message. -/
theorem test_hash_empty :
    (shown (exec (.hash []) State.reset) State.digestPort).join =
      some [0xe3, 0xb0, 0xc4, 0x42, 0x98, 0xfc, 0x1c, 0x14, 0x9a, 0xfb, 0xf4, 0xc8, 0x99, 0x6f, 0xb9, 0x24,
            0x27, 0xae, 0x41, 0xe4, 0x64, 0x9b, 0x93, 0x4c, 0xa4, 0x95, 0x99, 0x1b, 0x78, 0x52, 0xb8, 0x55] := by
  decide +kernel

/-- The known answer of "abc". -/
theorem test_hash_abc :
    (shown (exec (.hash abc) failedState) State.digestPort).join =
      some [0xba, 0x78, 0x16, 0xbf, 0x8f, 0x01, 0xcf, 0xea, 0x41, 0x41, 0x40, 0xde, 0x5d, 0xae, 0x22, 0x23,
            0xb0, 0x03, 0x61, 0xa3, 0x96, 0x17, 0x7a, 0x9c, 0xb4, 0x10, 0xff, 0x61, 0xf2, 0x00, 0x15, 0xad] := by
  decide +kernel

/-! ## The step -/

theorem test_step_unknown :
    refusedWith (step (State.reset.withFetchWord 8 0x50)) = some (.unknownOpid 0x50) := by decide

theorem test_step_idle : shown (step State.reset) id = some State.reset := by decide

theorem test_step_fetches : shown (step (State.reset.withFetchWord 8 0x42)) State.stage = some .padded := by decide

/-! ## States that meet the hypotheses of the statements, each clause at a boundary of its range -/

theorem witness_Add32IsSumModuloTwoPow32 :
    (0xffffffff : Word).toNat + (0 : Word).toNat < 2 ^ 32 ∧ 2 ^ 32 ≤ (0xffffffff : Word).toNat + (1 : Word).toNat := by
  decide

theorem witness_RotrIsCircularRightRotation :
    (0 ≤ 31 ∧ 31 ≤ 31) ∧ 31 < 32 ∧ 1 ≤ 1 ∧ 32 ≤ 32 := by decide

theorem witness_ShrIsFloorOfDivision :
    31 ≤ 31 ∧ 31 < 32 ∧ (2 : Word).toNat / 2 ^ 1 = (3 : Word).toNat / 2 ^ 1 ∧ 1 ≠ 0 ∧ 32 ≤ 32 := by decide

/-- The bit positions of Ssigma0BitByBit, and of the statements on the other three sigmas, Ch and Maj. -/
theorem witness_Ssigma0BitByBit : 0 < 32 ∧ 31 < 32 := by decide
theorem witness_Ssigma1BitByBit : 0 < 32 ∧ 31 < 32 := by decide
theorem witness_Lsigma0BitByBit : 0 < 32 ∧ 31 < 32 := by decide
theorem witness_Lsigma1BitByBit : 0 < 32 ∧ 31 < 32 := by decide
theorem witness_ChSelectsBits : 0 < 32 ∧ 31 < 32 := by decide
theorem witness_MajIsMajorityVote : 0 < 32 ∧ 31 < 32 := by decide

theorem witness_FnOperationsGiveTheirWord : 0 ≤ 31 ∧ 31 ≤ 31 := by decide

theorem witness_MemReadIsBigEndianSum : 0 + 4 ≤ ([1, 2, 3, 4] : List Byte).length ∧ 4 + 0 ≤ ([1, 2, 3, 4] : List Byte).length := by
  decide

theorem witness_MemWriteSetsExactlyItsBytes :
    1 + 2 ≤ ([1, 2, 3, 4] : List Byte).length ∧ 0xffff < 256 ^ 2 ∧ 1 < 2 ∧ (0 < 1 ∨ 1 + 2 ≤ 0) ∧ (3 < 1 ∨ 1 + 2 ≤ 3) := by
  decide

theorem witness_LengthFieldIsOriginalBitLength : 8 * ([] : List Byte).length < 2 ^ 64 ∧ 0 < 8 ∧ 7 < 8 := by decide

/-- The last word of the block `00 01 .. 3f`. -/
theorem witness_BlockWordIsFourBytesBigEndian :
    let p : List Byte := (List.range 64).map (BitVec.ofNat 8)
    0 < p.length / 64 ∧ p[64 * 0 + 4 * (15 : Fin 16).val]? = some 0x3c ∧
      p[64 * 0 + 4 * (15 : Fin 16).val + 1]? = some 0x3d ∧ p[64 * 0 + 4 * (15 : Fin 16).val + 2]? = some 0x3e ∧
      p[64 * 0 + 4 * (15 : Fin 16).val + 3]? = some 0x3f := by
  decide +kernel

theorem witness_DigestIsWordsBigEndian : 0 < 4 ∧ 3 < 4 := by decide

theorem witness_DecodeEncodeAgree : decode (cmd 0x00) = .ok (.add32 0x11 0x22) ∧ decode (cmd 0x4f) = .ok (.hash abc) :=
  ⟨rfl, rfl⟩

theorem witness_UnknownIdentifierRefused :
    (cmd 0x50).opid ∉ tableOpids ∧ { failedState with port := [cmd 0x50] }.port = cmd 0x50 :: [] := by decide +kernel

theorem witness_PaddedBufferLayout : 8 * abc.length < 2 ^ 64 ∧ 51 < zeroFill abc.length := by decide

theorem witness_ZeroFillIsLeastAndBlockBoundary :
    62 < zeroFill 56 ∧ (List.replicate 55 (0x61 : Byte)).length = 55 ∧ twoBlocks.length = 56 ∧
      twoBlocks.length = (List.replicate 55 (0x61 : Byte)).length + 1 := by
  decide +kernel

theorem witness_PaddedLengthIsWholeBlocks :
    8 * abc.length < 2 ^ 64 ∧ padded Config.chip abc ≠ abc ∧ padded ⟨true, 3⟩ abc ≠ abc := by decide +kernel

theorem witness_PadFunctionChoosesPadding :
    (Config.mk true 64).alignedSkip = true ∧ (List.replicate 64 (0x61 : Byte)).length % 64 = 0 ∧
      ([] : List Byte).length % 64 = 0 ∧ abc.length % 64 ≠ 0 ∧ (Config.mk false 64).alignedSkip = false ∧
      8 * abc.length < 2 ^ 64 ∧ (23 % 8 ≠ 0 ∨ 23 ≠ 8 * abc.length) ∧ (32 % 8 ≠ 0 ∨ 32 ≠ 8 * abc.length) := by
  decide +kernel

theorem witness_PadWritesPaddedBuffer :
    (msgState abc).stage = .msg ∧ Memory.wf (msgState abc) ∧ (msgState []).stage = .msg ∧ Memory.wf (msgState []) ∧
      State.reset.stage ≠ .msg := by
  decide

theorem witness_ParseFailsExactlyOffBlock :
    (List.replicate 65 (0x00 : Byte)).length % 64 ≠ 0 ∧
      (List.replicate 65 (0x00 : Byte)).length = (List.replicate 65 (0xff : Byte)).length := by
  decide +kernel

theorem witness_ParseGivesAllBlocksOrNone :
    parse (List.replicate 128 0x00) = .ok (blocksOf (List.replicate 128 0x00)) ∧
      1 < (blocksOf (List.replicate 128 0x00)).length ∧ (List.replicate 65 (0x00 : Byte)).length = 65 :=
  ⟨parse_ok (by simp), by simp, by simp⟩

theorem witness_ParseLosesNoByte :
    parse (appendPadding abc) = .ok (blocksOf (appendPadding abc)) ∧ parse [] = .ok (blocksOf []) :=
  ⟨parse_ok (by decide +kernel), rfl⟩

theorem witness_ParseWritesBlocks :
    (paddedState twoBlocks).stage = .padded ∧ Memory.wf (paddedState twoBlocks) ∧ (paddedState twoBlocks).plen % 64 = 0 ∧
      (pbState []).stage = .padded ∧ Memory.wf (pbState []) ∧ (pbState []).plen % 64 = 0 ∧
      failedState.stage ≠ .padded := by
  decide +kernel

theorem witness_ParseTakesInvalidInputLength :
    (pbState [0x00]).stage = .padded ∧ Memory.wf (pbState [0x00]) ∧ (pbState [0x00]).plen % 64 ≠ 0 ∧
      (pbState (List.replicate 63 0x00)).plen % 64 ≠ 0 := by
  decide +kernel

theorem witness_ErrCauseIsLengthAlone :
    exec .parse (pbState [0x00]) = .next (pbState [0x00]).raiseInvalidInputLength ∧ (pbState [0x00]).err = false ∧
      (pbState [0x00]).raiseInvalidInputLength.err = true ∧
      (pbState [0xff]).stage = .padded ∧ Memory.wf (pbState [0x00]) ∧ Memory.wf (pbState [0xff]) ∧
      (pbState [0x00]).plen = (pbState [0xff]).plen :=
  ⟨rfl, by decide, by decide, by decide, by decide, by decide, by decide⟩

theorem witness_ParseAfterPadSucceeds :
    (msgState twoBlocks).stage = .msg ∧ Memory.wf (msgState twoBlocks) := by decide +kernel

theorem witness_InitWritesH0 :
    (parsedState abc).stage = .parsed ∧ (parsedState abc).phase = .uninitialized ∧ noBlockState.stage = .parsed ∧
      (State.reset.stage ≠ .parsed ∨ State.reset.phase ≠ .uninitialized) ∧
      ((phaseState abc H0 .initialized).stage ≠ .parsed ∨ (phaseState abc H0 .initialized).phase ≠ .uninitialized) := by
  decide +kernel

theorem witness_SchedBuildsSchedule :
    0 < 16 ∧ 15 < 16 ∧ (16 ≤ 16 ∧ 63 < 64) ∧
      (phaseState abc H0 .initialized).stage = .parsed ∧ (phaseState abc H0 .initialized).phase = .initialized ∧
      (phaseState abc H0 .initialized).readBlk 0 = some abcBlock ∧
      (phaseState twoBlocks H0 (.processing 1)).stage = .parsed ∧
      (phaseState twoBlocks H0 (.processing 1)).phase = .processing 1 ∧
      (phaseState twoBlocks H0 (.processing 1)).us = .sched ∧
      (phaseState twoBlocks H0 (.processing 1)).readBlk 1 =
        some #v[0, 0, 0, 0, 0, 0, 0, 0, 0, 0, 0, 0, 0, 0, 0, 0x000001c0] ∧
      admitted Config.chip .sched State.reset = false := by
  decide +kernel

theorem witness_RoundUpdatesWorkingRegisters :
    (roundState 63 regs62).stage = .parsed ∧ (roundState 63 regs62).phase = .processing 0 ∧
      (roundState 63 regs62).us = .round 63 ∧ (roundState 63 regs62).W[(63 : Fin 64)] = some 0x12b1edeb ∧
      (roundState 63 regs62).R = cellsOf regs62 ∧
      (0xa8467f25 : Word) = 0xb21bad3d + lsigma1 0xfb121210 + ch 0xfb121210 0x948d25b6 0x961f4894 + K[63] + 0x12b1edeb ∧
      (0xa827b133 : Word) = lsigma0 0xd39a2165 + maj 0xd39a2165 0x04d24d6c 0xb85e2ce9 ∧
      admitted Config.chip .round loadState = false := by
  decide +kernel

theorem witness_FoldAccumulates :
    (foldState regs63).stage = .parsed ∧ (foldState regs63).phase = .processing 0 ∧ (foldState regs63).us = .fold ∧
      (foldState regs63).H = cellsOf H0 ∧ (foldState regs63).R = cellsOf regs63 ∧
      (∀ j : Fin 8, abcHash[j].toNat = (H0[j].toNat + regs63[j].toNat) % 2 ^ 32) ∧ 0 + 1 = (foldState regs63).nblk ∧
      admitted Config.chip .fold loadState = false := by
  decide +kernel

/-- The clause of a block that is not the last: block 0 of two. -/
theorem witness_FoldAccumulates_not_last :
    let s := ((phaseState twoBlocks H0 (.processing 0)).writeR regs63).setUs .fold
    s.stage = .parsed ∧ s.phase = .processing 0 ∧ s.us = .fold ∧ s.H = cellsOf H0 ∧ s.R = cellsOf regs63 ∧
      (∀ j : Fin 8, abcHash[j].toNat = (H0[j].toNat + regs63[j].toNat) % 2 ^ 32) ∧ 0 + 1 < s.nblk := by
  decide +kernel

theorem witness_CompressIsBlockTransition :
    (phaseState abc H0 .initialized).stage = .parsed ∧ (phaseState abc H0 .initialized).phase = .initialized ∧
      (phaseState abc H0 .initialized).H = cellsOf H0 ∧
      (phaseState abc H0 .initialized).readBlk 0 = some abcBlock ∧
      (phaseState twoBlocks abcHash (.processing 1)).phase = .processing 1 ∧
      (phaseState twoBlocks abcHash (.processing 1)).us = .sched ∧
      (phaseState twoBlocks abcHash (.processing 1)).H = cellsOf abcHash ∧
      (phaseState twoBlocks abcHash (.processing 1)).readBlk 1 =
        some #v[0, 0, 0, 0, 0, 0, 0, 0, 0, 0, 0, 0, 0, 0, 0, 0x000001c0] ∧
      admitted Config.chip .compress (phaseState abc abcHash .finalized) = false := by
  decide +kernel

theorem witness_CompressEqualsMicroOps :
    admitted Config.chip .compress (phaseState abc H0 .initialized) = true ∧
      admitted Config.chip .compress (phaseState twoBlocks abcHash (.processing 1)) = true := by
  decide +kernel

theorem witness_FinalWithNoBlock :
    (noBlockState.writeH H0).stage = .parsed ∧ ((noBlockState.writeH H0).setPhase .initialized).phase = .initialized ∧
      ((noBlockState.writeH H0).setPhase .initialized).nblk = 0 ∧
      ((phaseState abc H0 .initialized).stage ≠ .parsed ∨ (phaseState abc H0 .initialized).phase ≠ .initialized ∨
        (phaseState abc H0 .initialized).nblk ≠ 0) := by
  decide +kernel

theorem witness_BlocksFoldInOrder :
    (phaseState twoBlocks H0 .initialized).stage = .parsed ∧ (phaseState twoBlocks H0 .initialized).phase = .initialized ∧
      (phaseState twoBlocks H0 .initialized).H = cellsOf H0 ∧
      (phaseState twoBlocks H0 .initialized).nblk = (phaseState twoBlocks H0 .initialized).blk.length ∧
      1 ≤ 1 ∧ 1 < (phaseState twoBlocks H0 .initialized).nblk ∧ 2 = (phaseState twoBlocks H0 .initialized).nblk := by
  decide +kernel

/-- Two states that differ in W and a .. h alone; the first comes through COMPRESS. -/
theorem witness_OnlyHPassesBetweenBlocks :
    let s := phaseState abc H0 .initialized
    let s' := (s.writeW (Vector.replicate 64 0x5a5a5a5a)).writeR abcHash
    s.stage = s'.stage ∧ s.phase = s'.phase ∧ s.us = s'.us ∧ s.blk = s'.blk ∧ s.nblk = s'.nblk ∧ s.H = s'.H ∧
      s.W ≠ s'.W ∧ (shown (exec .compress s) id).isSome = true := by
  decide +kernel

theorem witness_LoadmsgTakesWholeMessage :
    State.reset.stage = .empty ∧ abc.length ≤ (Config.mk false 3).msgMaxBytes ∧ 8 * abc.length < 2 ^ 64 ∧
      ([] : List Byte).length ≤ Config.chip.msgMaxBytes ∧ (msgState abc).stage ≠ .empty ∧
      ((Config.mk false 2).msgMaxBytes < abc.length ∨ 2 ^ 64 ≤ 8 * abc.length) := by
  decide

theorem witness_LoadpbTakesAnyLength : State.reset.stage = .empty ∧ (msgState abc).stage ≠ .empty := by decide

theorem witness_ResetState :
    formatOf .clear ≠ .fn ∧ admitted Config.chip .clear State.reset = true ∧
      admitted Config.chip (.loadpb [0x00]) State.reset = true ∧ admitted Config.chip (.loadmsg abc) State.reset = true ∧
      admitted Config.chip (.hash []) State.reset = true := by
  decide

theorem witness_HashPresentsDigest :
    abc.length ≤ (Config.mk true 3).msgMaxBytes ∧ 8 * abc.length < 2 ^ 64 ∧ 8 * ([] : List Byte).length < 2 ^ 64 ∧
      ((Config.mk false 2).msgMaxBytes < abc.length ∨ 2 ^ 64 ≤ 8 * abc.length) := by
  decide

theorem witness_HashEqualsItsProgram : 8 * ([] : List Byte).length < 2 ^ 64 ∧ 8 * twoBlocks.length < 2 ^ 64 := by
  decide +kernel

theorem witness_DigestHas32BytesAndIsDeterministic :
    (shown (exec (.hash abc) failedState) id).isSome = true ∧ (shown (exec (.hash abc) State.reset) id).isSome = true := by
  decide +kernel

theorem witness_DigestPortOnlyInFinalized :
    (phaseState abc abcHash .finalized).phase = .finalized ∧ (phaseState abc abcHash .finalized).H = cellsOf abcHash ∧
      (phaseState abc H0 .initialized).phase ≠ .finalized := by
  decide +kernel

theorem witness_NotAdmittedIsRefused :
    admitted Config.chip .pad State.reset = false ∧ admitted Config.chip (.rotr 32 0) State.reset = false ∧
      admitted Config.chip (.loadmsg abc) (msgState abc) = false := by
  decide

theorem witness_OnlyWritersWrite :
    exec .pad (msgState abc) = .next (paddedState abc) ∧
      exec (.add32 1 2) failedState = .next { failedState with fnOut := some 3 } :=
  ⟨rfl, rfl⟩

theorem witness_StepPerformsNextOperation :
    { msgState abc with port := [cmd 0x10] }.port = cmd 0x10 :: [] ∧ decode (cmd 0x10) = .ok .pad ∧
      (msgState abc).port = [] :=
  ⟨rfl, rfl, rfl⟩

/-! ## States that meet the invariants -/

theorem stateInv_parsedState (m : List Byte) (hm : 8 * m.length < 2 ^ 64) : StateInv (parsedState m) := by
  have hlen : (appendPadding m).length = 64 * (blocksOf (appendPadding m)).length := by
    have hz : zeroFill m.length = (55 + 64 - m.length % 64) % 64 := rfl
    simp only [appendPadding, blocksOf, List.length_append, List.length_cons, List.length_nil, List.length_replicate,
      List.length_map, List.length_range, beBytes_length]
    omega
  exact ⟨wf_setStage _ (wf_storeBlk _ (wf_setStage _ (wf_storePb _ (wf_setStage _ (wf_storeMsg hm wf_reset))))),
    hlen, ⟨fun j => by simp [parsedState, paddedState, msgState, State.reset],
      fun j => by simp [parsedState, paddedState, msgState, State.reset],
      fun j => by simp [parsedState, paddedState, msgState, State.reset], rfl⟩,
    by simp [parsedState, paddedState, msgState, State.reset]⟩

theorem hashInv_parsedState (m : List Byte) (hm : 8 * m.length < 2 ^ 64) : HashInv Config.chip (parsedState m) :=
  ⟨stateInv_parsedState m hm, fun _ => rfl, fun _ _ => rfl, trivial⟩

/-- The state in Finalized, its hash state the fold over the blocks. -/
def doneState (m : List Byte) : State :=
  phaseState m (chain (blocksOf (appendPadding m)) (blocksOf (appendPadding m)).length) .finalized

theorem hashInv_doneState (m : List Byte) (hm : 8 * m.length < 2 ^ 64) : HashInv Config.chip (doneState m) := by
  obtain ⟨hw, hs, hp, he⟩ := stateInv_parsedState m hm
  exact ⟨⟨hw, hs, ⟨rfl, allHold_cellsOf _, hp.2.1, hp.2.2.1, rfl⟩, he⟩, fun _ => rfl, fun _ _ => rfl, rfl⟩

/-- "abc" with its schedule built: the state in which LOAD runs. -/
theorem hashInv_loadState : HashInv Config.chip loadState := by
  obtain ⟨hw, hs, hp, he⟩ := stateInv_parsedState abc (by decide)
  exact ⟨⟨hw, hs, ⟨rfl, allHold_cellsOf _, by decide +kernel, allHold_cellsOf _, hp.2.2.1⟩, he⟩,
    fun _ => rfl, fun _ _ => rfl, rfl, abcBlock, by decide +kernel, rfl⟩

theorem next_of_shown {r : Result} {t : State} (h : shown r id = some t) : r = .next t := by
  cases r <;> simp_all [shown]

theorem stateInv_failedState : StateInv failedState := by
  refine ⟨by decide +kernel, ⟨rfl, by decide +kernel⟩, ⟨fun j => ?_, fun j => ?_, fun j => ?_, rfl⟩, by decide⟩ <;>
    simp [failedState, pbState, State.raiseInvalidInputLength, State.reset]

theorem witness_LoadCopiesHashState :
    loadState.stage = .parsed ∧ loadState.phase = .processing 0 ∧ loadState.us = .load ∧ loadState.H = cellsOf H0 ∧
      HashInv Config.chip loadState ∧ exec .load loadState = .next (roundState 0 H0) ∧
      admitted Config.chip .load (roundState 0 H0) = false :=
  ⟨rfl, rfl, rfl, rfl, hashInv_loadState, next_of_shown (by decide +kernel), by decide +kernel⟩

theorem witness_AdmittedCompletes :
    StateInv (parsedState abc) ∧ admitted Config.chip .init (parsedState abc) = true ∧ StateInv loadState ∧
      admitted Config.chip .load loadState = true ∧ StateInv failedState ∧
      admitted Config.chip .clear failedState = true :=
  ⟨stateInv_parsedState _ (by decide), by decide, hashInv_loadState.1, by decide, stateInv_failedState, by decide⟩

theorem witness_BuffersImmutableUntilClear :
    exec .init (parsedState abc) = .next (phaseState abc H0 .initialized) ∧ Instr.init ≠ .clear ∧
      (∀ m, Instr.init ≠ .hash m) ∧ (parsedState abc).stage ≠ .empty ∧ (parsedState abc).stage = .parsed ∧
      HashInv Config.chip (parsedState abc) ∧ HashInv Config.chip (doneState twoBlocks) ∧
      (doneState twoBlocks).stage = .parsed :=
  ⟨rfl, by decide, fun m => by simp, by decide, rfl, hashInv_parsedState _ (by decide),
    hashInv_doneState _ (by decide +kernel), rfl⟩

theorem witness_FailedStaysFailed :
    StateInv failedState ∧ failedState.stage = .failed ∧
      exec (.add32 1 2) failedState = .next { failedState with fnOut := some 3 } ∧ Instr.add32 1 2 ≠ .clear ∧
      ∀ m, Instr.add32 1 2 ≠ .hash m :=
  ⟨stateInv_failedState, rfl, rfl, by decide, fun m => by simp⟩

/-- "abc" parsed, INIT issued. -/
theorem witness_StepKeepsInv :
    StateInv { parsedState abc with port := [cmd 0x30] } ∧
      step { parsedState abc with port := [cmd 0x30] } = .next (phaseState abc H0 .initialized) :=
  ⟨stateInv_parsedState abc (by decide), rfl⟩

theorem witness_StepKeepsHashInv :
    HashInv Config.chip { loadState with port := [cmd 0x32] } ∧
      step { loadState with port := [cmd 0x32] } = .next (roundState 0 H0) :=
  ⟨hashInv_loadState, next_of_shown (by decide +kernel)⟩

/-- Two Initialized states that differ in W, a .. h and ERR: all their blocks are the same (`k = 2`), and with one more
block in the second, the first two are (the clause that ends in Finalized asks nothing then). -/
theorem witness_EqualBlocksEqualHashState :
    let s := phaseState twoBlocks H0 .initialized
    let s' := ((s.writeW (Vector.replicate 64 0x5a5a5a5a)).writeR abcHash).setErr
    let longer := s'.storeBlk (s.blk ++ [abcBlock])
    (s.stage = .parsed ∧ s'.stage = .parsed ∧ s.phase = .initialized ∧ s'.phase = .initialized ∧ s.H = cellsOf H0 ∧
      s'.H = cellsOf H0 ∧ s.nblk = s.blk.length ∧ s'.nblk = s'.blk.length ∧ 2 = s.nblk ∧ 2 = s'.nblk ∧ s ≠ s' ∧
      s.blk.take 2 = s'.blk.take 2) ∧
    (longer.stage = .parsed ∧ longer.phase = .initialized ∧ longer.H = cellsOf H0 ∧ longer.nblk = longer.blk.length ∧
      2 < longer.nblk ∧ s.blk.take 2 = longer.blk.take 2) := by
  decide +kernel

/-- The clause from Uninitialized, with two different values of H. -/
theorem witness_EqualBlocksEqualHashState_init :
    let s := parsedState abc
    let s' := s.writeH abcHash
    s.stage = .parsed ∧ s'.stage = .parsed ∧ s.phase = .uninitialized ∧ s'.phase = .uninitialized ∧
      s.nblk = s.blk.length ∧ s'.nblk = s'.blk.length ∧ 1 = s.nblk ∧ 1 = s'.nblk ∧ s.blk.take 1 = s'.blk.take 1 ∧
      s.H ≠ s'.H := by
  decide +kernel

theorem witness_FinalizedPresentsHash :
    HashInv Config.chip (doneState abc) ∧ (doneState abc).phase = .finalized ∧ (doneState abc).msg ≠ [] :=
  ⟨hashInv_doneState _ (by decide), rfl, by decide⟩

end Sys2Proof.Tests
end

section
/-! SUPPORT. What an operation can do to the three buffers, said once, and O53. -/

namespace Sys2Proof.Machine

variable {s t u : State}

/-! ## Operations that leave the buffers -/

/-- MSG, PB and BLK, their length registers and STAGE are the same in both states. -/
structure BuffersKept (s t : State) : Prop where
  msg : t.msg = s.msg
  mlen : t.mlen = s.mlen
  bitlen : t.bitlen = s.bitlen
  pb : t.pb = s.pb
  plen : t.plen = s.plen
  blk : t.blk = s.blk
  nblk : t.nblk = s.nblk
  stage : t.stage = s.stage

namespace BuffersKept

theorem refl (s : State) : BuffersKept s s := by constructor <;> rfl

theorem trans (h : BuffersKept s t) (k : BuffersKept t u) : BuffersKept s u where
  msg := k.msg.trans h.msg
  mlen := k.mlen.trans h.mlen
  bitlen := k.bitlen.trans h.bitlen
  pb := k.pb.trans h.pb
  plen := k.plen.trans h.plen
  blk := k.blk.trans h.blk
  nblk := k.nblk.trans h.nblk
  stage := k.stage.trans h.stage

theorem setFnOut (s : State) (r : Word) : BuffersKept s (s.setFnOut r) := by constructor <;> rfl

end BuffersKept

theorem giveWord_buffersKept {r : Word} (h : giveWord r s = .next t) : BuffersKept s t :=
  giveWord_next h ▸ .setFnOut s r

theorem execInit_buffersKept (h : execInit s = .next t) : BuffersKept s t := by
  obtain ⟨-, -, rfl⟩ := execInit_next h
  constructor <;> rfl

theorem execSched_buffersKept (h : execSched s = .next t) : BuffersKept s t := by
  obtain ⟨-, i, b, -, -, -, rfl⟩ := execSched_next h
  constructor <;> rfl

theorem execLoad_buffersKept (h : execLoad s = .next t) : BuffersKept s t := by
  obtain ⟨-, i, w, -, -, -, rfl⟩ := execLoad_next h
  constructor <;> rfl

theorem execRound_buffersKept (h : execRound s = .next t) : BuffersKept s t := by
  obtain ⟨-, i, k, r, w, -, -, -, -, rfl⟩ := execRound_next h
  constructor <;> rfl

theorem execFold_buffersKept (h : execFold s = .next t) : BuffersKept s t := by
  obtain ⟨-, i, x, r, -, -, -, -, -, rfl⟩ := execFold_next h
  constructor <;> rfl

theorem execFinal_buffersKept (h : execFinal s = .next t) : BuffersKept s t := by
  obtain ⟨-, -, -, rfl⟩ := execFinal_next h
  constructor <;> rfl

/-- Repeating an operation that leaves the buffers leaves them. -/
theorem repeatOp_buffersKept {f : State → Result} (hf : ∀ s t, f s = .next t → BuffersKept s t) {k : Nat}
    (h : repeatOp f k s = .next t) : BuffersKept s t :=
  repeatOp_keeps (P := BuffersKept s) (fun a b ha hab => ha.trans (hf a b hab)) k s t (.refl s) h

/-- COMPRESS leaves the buffers because each of its micro-operations does (43_compressor.md R142). -/
theorem execCompress_buffersKept (h : execCompress s = .next t) : BuffersKept s t := by
  obtain ⟨u, v, w, hu, hv, hw, ht⟩ := compressBlock_next (execCompress_next h)
  have hrounds : BuffersKept v w := repeatOp_buffersKept (fun _ _ => execRound_buffersKept) hw
  exact (execSched_buffersKept hu).trans <| (execLoad_buffersKept hv).trans <|
    hrounds.trans (execFold_buffersKept ht)

/-! ## What one operation does to the buffers -/

/-- The ways an operation other than CLEAR and HASH can treat the buffers: it leaves them, or it is one of the four
operations that move STAGE on, from the STAGE that operation needs (44_top.md R177). -/
inductive BufferStep (s : State) : State → Prop where
  | kept {t : State} (h : BuffersKept s t) : BufferStep s t
  | loadmsg (m : List Byte) (h : s.stage = .empty) : BufferStep s ((s.storeMsg m).setStage .msg)
  | loadpb (p : List Byte) (h : s.stage = .empty) : BufferStep s ((s.storePb p).setStage .padded)
  | pad (h : s.stage = .msg) :
      BufferStep s ((s.storePb (padded Config.chip (s.msg.take s.mlen))).setStage .padded)
  | parse (h : s.stage = .padded) :
      BufferStep s ((s.storeBlk (blocksOf (s.pb.take s.plen))).setStage .parsed)
  | parseFailed (h : s.stage = .padded) : BufferStep s s.raiseInvalidInputLength

theorem exec_bufferStep {i : Instr} (h : exec i s = .next t) (hclear : i ≠ .clear) (hhash : ∀ m, i ≠ .hash m) :
    BufferStep s t := by
  cases i with
  | add32 x y => exact .kept (giveWord_buffersKept h)
  | rotr n x => exact .kept ((execRotr_next h).2 ▸ .setFnOut s _)
  | shr n x => exact .kept ((execShr_next h).2 ▸ .setFnOut s _)
  | ssigma0 x => exact .kept (giveWord_buffersKept h)
  | ssigma1 x => exact .kept (giveWord_buffersKept h)
  | lsigma0 x => exact .kept (giveWord_buffersKept h)
  | lsigma1 x => exact .kept (giveWord_buffersKept h)
  | ch x y z => exact .kept (giveWord_buffersKept h)
  | maj x y z => exact .kept (giveWord_buffersKept h)
  | pad =>
    obtain ⟨hs, -, -, rfl⟩ := padOp_next h
    exact .pad hs
  | parse =>
    obtain ⟨hs, -, ⟨-, rfl⟩ | ⟨-, rfl⟩⟩ := execParse_next h
    · exact .parseFailed hs
    · exact .parse hs
  | init => exact .kept (execInit_buffersKept h)
  | sched => exact .kept (execSched_buffersKept h)
  | load => exact .kept (execLoad_buffersKept h)
  | round => exact .kept (execRound_buffersKept h)
  | fold => exact .kept (execFold_buffersKept h)
  | final => exact .kept (execFinal_buffersKept h)
  | compress => exact .kept (execCompress_buffersKept h)
  | clear => exact absurd rfl hclear
  | loadmsg m =>
    obtain ⟨hs, -, rfl⟩ := loadMsgOp_next h
    exact .loadmsg m hs
  | loadpb p =>
    obtain ⟨hs, rfl⟩ := execLoadpb_next h
    exact .loadpb p hs
  | hash m => exact absurd rfl (hhash m)

namespace BufferStep

/-- MSG is written in S_EMPTY alone. -/
theorem msg_eq (h : BufferStep s t) (hs : s.stage ≠ .empty) : t.msg = s.msg := by
  cases h with
  | kept hk => exact hk.msg
  | loadmsg m he => exact absurd he hs
  | loadpb | pad | parse | parseFailed => rfl

/-- PB is written in S_EMPTY and S_MSG alone. -/
theorem pb_eq (h : BufferStep s t) (hs : s.stage = .padded ∨ s.stage = .parsed ∨ s.stage = .failed) :
    t.pb = s.pb := by
  cases h with
  | kept hk => exact hk.pb
  | loadpb p he => simp [he] at hs
  | pad hm => simp [hm] at hs
  | loadmsg | parse | parseFailed => rfl

/-- BLK is written in S_PADDED alone. -/
theorem blk_eq (h : BufferStep s t) (hs : s.stage ≠ .padded) : t.blk = s.blk := by
  cases h with
  | kept hk => exact hk.blk
  | parse hp => exact absurd hp hs
  | loadmsg | loadpb | pad | parseFailed => rfl

end BufferStep

/-! ## PB begins with the message -/

/-- With ALIGNED_SKIP or without, padding only appends to the message. -/
theorem take_length_padded (cfg : Config) (m : List Byte) : (padded cfg m).take m.length = m := by
  unfold padded appendPadding
  split
  · exact List.take_length
  · simp only [List.append_assoc, List.take_left]

/-- The empty message is a prefix of any PB, so of one from LOADPB; every other one has been padded into PB. -/
theorem take_mlen_pb_of_hashInv {cfg : Config} (h : HashInv cfg s)
    (hs : s.stage = .padded ∨ s.stage = .parsed ∨ s.stage = .failed) : s.pb.take s.mlen = s.msg := by
  obtain ⟨⟨⟨hmlen, -⟩, -⟩, -, hpb, -⟩ := h
  rw [hmlen]
  by_cases hm : s.msg = []
  · simp [hm]
  · rw [hpb hm hs, take_length_padded]

/-- Settles O53: each writer of a buffer needs a STAGE before the one that says the buffer is written, and padding
only appends to the message. -/
theorem buffersImmutableUntilClear : Obligations.BuffersImmutableUntilClear := by
  refine ⟨fun i s t h hclear hhash => ?_, fun s h hs => take_mlen_pb_of_hashInv h hs⟩
  have hstep : BufferStep s t := exec_bufferStep h hclear hhash
  exact ⟨hstep.msg_eq, hstep.pb_eq, fun hs => hstep.blk_eq (by simp [hs])⟩

end Sys2Proof.Machine
end

section
/-! SUPPORT. The bytes of a number and the numbers bytes make, in the three places the block lays them out: the length
field of the padding, the words of a block, the digest. O13, O14 and O15. -/

namespace Sys2Proof.Machine

/-! ## Bytes of a number, and a number read from a buffer -/

/-- Byte `q` of `beBytes`, in the form of 20_memory.md R43, which reduces it modulo 256. -/
theorem beBytes_getElem? {n q : Nat} (v : Nat) (hq : q < n) :
    (beBytes n v)[q]? = some (BitVec.ofNat 8 (v / 256 ^ (n - 1 - q) % 256)) := by
  rw [List.getElem?_eq_getElem (by simpa using hq), beBytes_getElem]
  exact congrArg some (BitVec.eq_of_toNat_eq (by simp))

/-- The four bytes of a word are its bit fields, the most significant first (30_encoding.md R65). -/
theorem beBytes_four_toNat (x : Word) :
    beBytes 4 x.toNat = [x.extractLsb' 24 8, x.extractLsb' 16 8, x.extractLsb' 8 8, x.extractLsb' 0 8] := by
  simp [beBytes, List.range_succ, BitVec.extractLsb', Nat.shiftRight_eq_div_pow]

theorem memRead_lt (buf : List Byte) (k n : Nat) : memRead buf k n < 256 ^ n :=
  (fromBe_lt _).trans_le (Nat.pow_le_pow_right (by decide) (List.length_take_le _ _))

theorem memRead_four {buf : List Byte} {k : Nat} {b0 b1 b2 b3 : Byte} (h0 : buf[k]? = some b0)
    (h1 : buf[k + 1]? = some b1) (h2 : buf[k + 2]? = some b2) (h3 : buf[k + 3]? = some b3) :
    memRead buf k 4 = fromBe [b0, b1, b2, b3] := by
  simp [memRead, List.take_add_one, h0, h1, h2, h3]

/-! ## The length field of the padding -/

theorem drop_appendPadding (m : List Byte) :
    (appendPadding m).drop ((appendPadding m).length - 8) = beBytes 8 (8 * m.length) := by
  rw [appendPadding_length, Nat.add_sub_cancel]
  exact List.drop_left' (by simp; omega)

/-- Settles O13: the length field is what is left of the padding after all but its last 8 bytes, and a read gives back
the number whose bytes it is. -/
theorem lengthFieldIsOriginalBitLength : Obligations.LengthFieldIsOriginalBitLength := by
  refine ⟨fun m hm => ⟨?_, fun q hq => ?_⟩, by decide, by decide⟩
  · rw [memRead, drop_appendPadding, List.take_of_length_le (by simp), fromBe_beBytes]
    exact Nat.mod_eq_of_lt hm
  · rw [← List.getElem?_drop, drop_appendPadding, beBytes_getElem? _ hq]

/-! ## The words of a block -/

theorem blockAt_getElem_toNat (p : List Byte) (i : Nat) (j : Fin 16) :
    (blockAt p i)[j].toNat = memRead p (64 * i + 4 * j.val) 4 := by
  simp only [blockAt, Fin.getElem_fin, Vector.getElem_ofFn, BitVec.toNat_ofNat]
  exact Nat.mod_eq_of_lt (memRead_lt p _ 4)

/-- Settles O14: the word is the number its four bytes make, and the bytes of that number, which are the word's bit
fields, are the four bytes again. -/
theorem blockWordIsFourBytesBigEndian : Obligations.BlockWordIsFourBytesBigEndian := by
  intro p i j b0 b1 b2 b3 hi h0 h1 h2 h3
  have hword : (blockAt p i)[j].toNat = fromBe [b0, b1, b2, b3] :=
    (blockAt_getElem_toNat p i j).trans (memRead_four h0 h1 h2 h3)
  have hfields : beBytes 4 (blockAt p i)[j].toNat = [b0, b1, b2, b3] := hword ▸ beBytes_fromBe [b0, b1, b2, b3]
  rw [beBytes_four_toNat] at hfields
  simp only [List.cons.injEq, and_true] at hfields
  refine ⟨blockAt p i, by rw [blocksOf_getElem?, if_pos hi], ?_, hfields⟩
  rw [hword]
  simp [fromBe_cons, Nat.add_assoc]

/-! ## The digest -/

/-- When every part has the same length `n`, position `n * j + q` lies in part `j`. -/
theorem getElem?_flatMap_of_length_eq {α β : Type} {f : α → List β} {n q : Nat} (hf : ∀ a, (f a).length = n)
    (hq : q < n) (l : List α) (j : Nat) : (l.flatMap f)[n * j + q]? = l[j]?.bind fun a => (f a)[q]? := by
  induction l generalizing j with
  | nil => rfl
  | cons a l ih =>
    rw [List.flatMap_cons]
    cases j with
    | zero => simp [List.getElem?_append_left, hf, hq]
    | succ j =>
      have hidx : n * (j + 1) + q - (f a).length = n * j + q := by rw [hf, Nat.mul_succ]; omega
      rw [List.getElem?_append_right (by rw [hf, Nat.mul_succ]; omega), hidx, ih, List.getElem?_cons_succ]

theorem digestBytes_length (h : Words8) : (digestBytes h).length = 32 := by simp [digestBytes]

theorem digestBytes_getElem? (h : Words8) (j : Fin 8) {q : Nat} (hq : q < 4) :
    (digestBytes h)[4 * j.val + q]? = (beBytes 4 h[j].toNat)[q]? := by
  have hlen (x : Word) : (beBytes 4 x.toNat).length = 4 := beBytes_length 4 x.toNat
  rw [digestBytes, getElem?_flatMap_of_length_eq hlen hq]
  simp

/-- Settles O15: each of the eight words gives four bytes, so byte `4j + q` is byte `q` of word `j`. -/
theorem digestIsWordsBigEndian : Obligations.DigestIsWordsBigEndian := fun h =>
  ⟨digestBytes_length h, fun j _ hq => (digestBytes_getElem? h j hq).trans (beBytes_getElem? _ hq)⟩

end Sys2Proof.Machine
end

section
/-! SUPPORT. The length check of `parse`, and the bytes of the blocks it gives: O25 and O27. -/

namespace Sys2Proof.Machine

/-! ## The length check -/

/-- `parse` fails on the length alone, and with no other failure than this one (42_parser.md R121). -/
theorem parse_eq_error_iff {p : List Byte} {e : Fault} :
    parse p = .error e ↔ p.length % 64 ≠ 0 ∧ e = .invalidInputLength p.length := by
  by_cases h : p.length % 64 = 0
  · simp [parse_ok h, h]
  · simp [parse, h, eq_comm]

/-- `parse` succeeds on whole blocks alone, and gives the blocks of the buffer (42_parser.md R121, R124). -/
theorem parse_eq_ok_iff {p : List Byte} {bs : List Block} :
    parse p = .ok bs ↔ p.length % 64 = 0 ∧ blocksOf p = bs := by
  by_cases h : p.length % 64 = 0
  · simp [parse_ok h, h]
  · simp [parse, h]

/-- Settles O25: whether `parse` fails, and with which value, is said by the length of the buffer. -/
theorem parseFailsExactlyOffBlock : Obligations.ParseFailsExactlyOffBlock := by
  refine ⟨fun p => ?_, fun p q hlen => ?_⟩
  · simp only [parse_eq_error_iff, and_true]
  · simp only [parse_eq_error_iff, hlen]

/-! ## The bytes of the blocks -/

/-- The first `k` pieces of `n` elements, put together again, are the first `n * k` elements. -/
theorem flatMap_take_drop_range {α : Type} (n k : Nat) (l : List α) :
    ((List.range k).flatMap fun i => (l.drop (n * i)).take n) = l.take (n * k) := by
  induction k with
  | zero => simp
  | succ k ih => simp [List.range_succ, ih, Nat.mul_succ, List.take_add]

/-- The words of a block in order, as the numbers read from the buffer (42_parser.md R123). -/
theorem blockAt_toList (p : List Byte) (i : Nat) :
    (blockAt p i).toList = (List.range 16).map fun j => BitVec.ofNat 32 (memRead p (64 * i + 4 * j) 4) := by
  rw [blockAt, Vector.toList_ofFn, List.ofFn_eq_map, ← List.map_coe_finRange_eq_range, List.map_map]
  rfl

/-- A word made from four bytes that lie in the buffer has those bytes. -/
theorem beBytes_toNat_ofNat_memRead {p : List Byte} {k : Nat} (h : k + 4 ≤ p.length) :
    beBytes 4 (BitVec.ofNat 32 (memRead p k 4)).toNat = (p.drop k).take 4 := by
  have hlen : ((p.drop k).take 4).length = 4 := by simp; omega
  have hword : (BitVec.ofNat 32 (memRead p k 4)).toNat = memRead p k 4 := Nat.mod_eq_of_lt (memRead_lt p k 4)
  have hbytes := beBytes_fromBe ((p.drop k).take 4)
  rwa [hlen, ← memRead, ← hword] at hbytes

/-- The bytes of the words of block `i` are the buffer's 64 bytes from `64i` (42_parser.md R122, R123). -/
theorem blockAt_flatMap_beBytes {p : List Byte} {i : Nat} (h : 64 * i + 64 ≤ p.length) :
    ((blockAt p i).toList.flatMap fun x => beBytes 4 x.toNat) = (p.drop (64 * i)).take 64 := by
  rw [blockAt_toList, List.flatMap_map]
  calc ((List.range 16).flatMap fun j => beBytes 4 (BitVec.ofNat 32 (memRead p (64 * i + 4 * j) 4)).toNat)
      = (List.range 16).flatMap fun j => ((p.drop (64 * i)).drop (4 * j)).take 4 := by
        refine List.flatMap_congr fun j hj => ?_
        have hj : j < 16 := List.mem_range.mp hj
        rw [beBytes_toNat_ofNat_memRead (by omega), List.drop_drop]
    _ = (p.drop (64 * i)).take 64 := flatMap_take_drop_range 4 16 _

/-- The bytes of all the blocks are the buffer, when it is one of whole blocks (42_parser.md R126). -/
theorem blocksOf_flatMap_beBytes {p : List Byte} (h : p.length % 64 = 0) :
    ((blocksOf p).flatMap fun b => b.toList.flatMap fun x => beBytes 4 x.toNat) = p := by
  rw [blocksOf, List.flatMap_map]
  calc ((List.range (p.length / 64)).flatMap fun i => (blockAt p i).toList.flatMap fun x => beBytes 4 x.toNat)
      = (List.range (p.length / 64)).flatMap fun i => (p.drop (64 * i)).take 64 := by
        refine List.flatMap_congr fun i hi => ?_
        have hi : i < p.length / 64 := List.mem_range.mp hi
        exact blockAt_flatMap_beBytes (by omega)
    _ = p.take (64 * (p.length / 64)) := flatMap_take_drop_range 64 _ p
    _ = p := List.take_of_length_le (by omega)

/-- Settles O27: the words of the blocks have the bytes of the buffer in order, so the blocks determine the buffer. -/
theorem parseLosesNoByte : Obligations.ParseLosesNoByte := by
  have hbytes (p : List Byte) (bs : List Block) (h : parse p = .ok bs) :
      (bs.flatMap fun b => b.toList.flatMap fun x => beBytes 4 x.toNat) = p := by
    obtain ⟨hlen, rfl⟩ := parse_eq_ok_iff.mp h
    exact blocksOf_flatMap_beBytes hlen
  exact ⟨hbytes, fun p q bs hp hq => (hbytes p bs hp).symm.trans (hbytes q bs hq)⟩

end Sys2Proof.Machine
end

section
/-! SUPPORT. COMPRESS as one transition, said once in both directions, and a run of it over the blocks: O40, O41 and
O59. -/

namespace Sys2Proof.Machine

variable {s t : State} {i : Nat} {h : Words8} {b : Block}

/-! ## One block -/

/-- The compressor stands before the first micro-operation of block `i`, which is one of its blocks, with a chaining
value in H (43_compressor.md R135, R142). -/
structure BeforeBlock (s : State) (i : Nat) (h : Words8) (b : Block) : Prop where
  stage : s.stage = .parsed
  start : s.phase = .initialized ∧ i = 0 ∨ s.phase = .processing i ∧ s.us = .sched
  hash : s.H = cellsOf h
  index : i < s.nblk
  block : s.blk[i]? = some b

/-- PHASE when block `i` is folded (43_compressor.md R141). -/
def State.phaseAfter (s : State) (i : Nat) : Phase := if i + 1 < s.nblk then .processing (i + 1) else .finalized

/-- The state after COMPRESS on block `i`, with the chaining value it gave (43_compressor.md R142). -/
def State.afterBlock (s : State) (i : Nat) (h : Words8) : State :=
  (((s.writeH h).endBlock).setUs .sched).setPhase (s.phaseAfter i)

namespace State

variable (s) (i h)

@[simp] theorem afterBlock_stage : (s.afterBlock i h).stage = s.stage := rfl
@[simp] theorem afterBlock_phase : (s.afterBlock i h).phase = s.phaseAfter i := rfl
@[simp] theorem afterBlock_us : (s.afterBlock i h).us = .sched := rfl
@[simp] theorem afterBlock_H : (s.afterBlock i h).H = cellsOf h := rfl
@[simp] theorem afterBlock_blk : (s.afterBlock i h).blk = s.blk := rfl
@[simp] theorem afterBlock_nblk : (s.afterBlock i h).nblk = s.nblk := rfl
@[simp] theorem afterBlock_phaseAfter (j : Nat) : (s.afterBlock i h).phaseAfter j = s.phaseAfter j := rfl

/-! What W, a .. h, PHASE and US held is lost after the block. -/

@[simp] theorem writeW_afterBlock (w : Vector Word 64) : (s.writeW w).afterBlock i h = s.afterBlock i h := rfl
@[simp] theorem writeR_afterBlock (r : Words8) : (s.writeR r).afterBlock i h = s.afterBlock i h := rfl
@[simp] theorem setPhase_afterBlock (p : Phase) : (s.setPhase p).afterBlock i h = s.afterBlock i h := rfl
@[simp] theorem setUs_afterBlock (u : MicroStep) : (s.setUs u).afterBlock i h = s.afterBlock i h := rfl

end State

/-- US before round `k` of 64, U_FOLD when all are done (43_compressor.md R139). -/
def roundAt (k : Nat) : MicroStep := if hk : k < 64 then .round ⟨k, hk⟩ else .fold

theorem BeforeBlock.execSched_eq (hs : BeforeBlock s i h b) :
    execSched s = .next (((s.writeW (schedule b)).setPhase (.processing i)).setUs .load) := by
  have hread : s.readBlk i = some b := State.readBlk_eq_some.mpr ⟨hs.index, hs.block⟩
  obtain ⟨hp, rfl⟩ | ⟨hp, hu⟩ := hs.start
  · have hn : 1 ≤ s.nblk := hs.index
    simp [execSched, hs.stage, hp, hn, schedBlock, hread]
  · simp [execSched, hs.stage, hp, hu, schedBlock, hread]

theorem execLoad_eq (hs : s.stage = .parsed) (hp : s.phase = .processing i) (hu : s.us = .load)
    (hH : s.H = cellsOf h) : execLoad s = .next ((s.writeR h).setUs (.round 0)) := by
  simp [execLoad, hs, hp, hu, hH]

theorem execRound_eq {k : Fin 64} {w : Vector Word 64} {r : Words8} (hs : s.stage = .parsed)
    (hp : s.phase = .processing i) (hu : s.us = .round k) (hW : s.W = cellsOf w) (hR : s.R = cellsOf r) :
    execRound s = .next ((s.writeR (round K[k] w[k] r)).setUs (afterRound k)) := by
  simp [execRound, hs, hp, hu, hW, hR]

theorem execFold_eq {r : Words8} (hs : s.stage = .parsed) (hp : s.phase = .processing i) (hu : s.us = .fold)
    (hH : s.H = cellsOf h) (hR : s.R = cellsOf r) (hi : i < s.nblk) :
    execFold s = .next (s.afterBlock i (foldWords h r)) := by
  by_cases hlt : i + 1 < s.nblk
  · simp [execFold, hs, hp, hu, hH, hR, State.afterBlock, State.phaseAfter, hlt]
  · have hlast : i + 1 = s.nblk := by omega
    simp [execFold, hs, hp, hu, hH, hR, State.afterBlock, State.phaseAfter, hlast]

/-- The rounds that are left, when `k` of them are done, do the rest of the 64 (43_compressor.md R139). -/
theorem repeatOp_execRound_eq {w : Vector Word 64} (hs : s.stage = .parsed) (hp : s.phase = .processing i)
    (hW : s.W = cellsOf w) : ∀ n k (hk : k + n = 64),
      repeatOp execRound n ((s.writeR (roundsUpTo w h k (by omega))).setUs (roundAt k)) =
        .next ((s.writeR (roundsUpTo w h 64 (by omega))).setUs .fold) := by
  intro n
  induction n with
  | zero =>
    intro k hk
    have hlast : k = 64 := hk
    subst hlast
    rfl
  | succ n ih =>
    intro k hk
    have hlt : k < 64 := by omega
    have hround := execRound_eq (k := ⟨k, hlt⟩)
      (s := (s.writeR (roundsUpTo w h k (by omega))).setUs (roundAt k)) hs hp (dif_pos hlt) hW rfl
    rw [repeatOp_succ, hround, andThen_next]
    exact ih (k + 1) (by omega)

/-- The micro-operations after SCHED, when it left the schedule `w` in W (43_compressor.md R142). -/
theorem load_rounds_fold_eq {w : Vector Word 64} (hs : s.stage = .parsed) (hp : s.phase = .processing i)
    (hu : s.us = .load) (hW : s.W = cellsOf w) (hH : s.H = cellsOf h) (hi : i < s.nblk) :
    andThen (andThen (execLoad s) (repeatOp execRound 64)) execFold =
      .next (s.afterBlock i (foldWords h (roundsUpTo w h 64 (by omega)))) := by
  have hrounds := repeatOp_execRound_eq (h := h) hs hp hW 64 0 rfl
  have hfold (r : Words8) : execFold ((s.writeR r).setUs .fold) = .next (s.afterBlock i (foldWords h r)) := by
    rw [execFold_eq (i := i) (h := h) (r := r)] <;> simp [hs, hp, hH, hi]
  rw [execLoad_eq hs hp hu hH, andThen_next]
  exact (congrArg (andThen · execFold) hrounds).trans (hfold _)

/-- COMPRESS where it is admitted is the transition of one block (43_compressor.md R142). -/
theorem BeforeBlock.execCompress_eq (hs : BeforeBlock s i h b) :
    execCompress s = .next (s.afterBlock i (compress h b)) := by
  have hblock : execCompress s = compressBlock s := by
    obtain ⟨hp, rfl⟩ | ⟨hp, hu⟩ := hs.start
    · have hn : 1 ≤ s.nblk := hs.index
      simp [execCompress, hs.stage, hp, hn]
    · simp [execCompress, hs.stage, hp, hu]
  rw [hblock, compressBlock, hs.execSched_eq, andThen_next,
    load_rounds_fold_eq (i := i) (h := h) (w := schedule b)] <;> simp [compress, hs.stage, hs.hash, hs.index]

/-- What COMPRESS can do: it was admitted before a block, and the next state is the one after that block. -/
theorem execCompress_eq_next :
    execCompress s = .next t ↔ ∃ i h b, BeforeBlock s i h b ∧ t = s.afterBlock i (compress h b) := by
  constructor
  · intro hc
    obtain ⟨u, v, -, hsched, hload, -, -⟩ := compressBlock_next (execCompress_next hc)
    obtain ⟨hstage, i, b, hstart, hi, hb, rfl⟩ := execSched_next hsched
    obtain ⟨-, -, h, -, -, hH, -⟩ := execLoad_next hload
    have hs : BeforeBlock s i h b := ⟨hstage, hstart, hH, hi, hb⟩
    rw [hs.execCompress_eq] at hc
    cases hc
    exact ⟨i, h, b, hs, rfl⟩
  · rintro ⟨i, h, b, hs, rfl⟩
    exact hs.execCompress_eq

/-- Settles O41: what COMPRESS needs of a state and what it writes into H, PHASE and US speak of STAGE, PHASE, US, the
blocks and H alone. -/
theorem onlyHPassesBetweenBlocks : Obligations.OnlyHPassesBetweenBlocks := by
  intro s s' t hstage hphase hus hblk hnblk hH hc
  obtain ⟨i, h, b, hs, rfl⟩ := execCompress_eq_next.mp hc
  have hs' : BeforeBlock s' i h b :=
    ⟨hstage ▸ hs.stage, hphase ▸ hus ▸ hs.start, hH ▸ hs.hash, hnblk ▸ hs.index, hblk ▸ hs.block⟩
  have hafter : s'.phaseAfter i = s.phaseAfter i := by rw [State.phaseAfter, State.phaseAfter, hnblk]
  exact ⟨s'.afterBlock i (compress h b), hs'.execCompress_eq, rfl, hafter, rfl⟩

/-! ## A run over the blocks -/

/-- When a block is left, the state after one block stands before the next. -/
theorem BeforeBlock.afterBlock {h' : Words8} {b' : Block} (hs : BeforeBlock s i h b) (hi : i + 1 < s.nblk)
    (hb : s.blk[i + 1]? = some b') : BeforeBlock (s.afterBlock i h') (i + 1) h' b' :=
  ⟨by simpa using hs.stage, .inr ⟨by simp [State.phaseAfter, hi], by simp⟩, by simp, by simpa using hi,
    by simpa using hb⟩

/-- The fold from block `i` on takes that block first. -/
theorem BeforeBlock.foldl_compress_succ (hs : BeforeBlock s i h b) (k : Nat) :
    ((s.blk.drop i).take (k + 1)).foldl compress h =
      ((s.blk.drop (i + 1)).take k).foldl compress (compress h b) := by
  obtain ⟨hi, rfl⟩ := List.getElem?_eq_some_iff.mp hs.block
  rw [List.drop_eq_getElem_cons hi, List.take_succ_cons, List.foldl_cons]

/-- From before block `i`, `k + 1` COMPRESS fold the blocks from `i` on in order (43_compressor.md R143). -/
theorem BeforeBlock.repeatOp_execCompress {k : Nat} (hs : BeforeBlock s i h b) (hwf : s.nblk = s.blk.length)
    (hk : i + k < s.nblk) :
    ∃ t, repeatOp execCompress (k + 1) s = .next t ∧
      t.H = cellsOf (((s.blk.drop i).take (k + 1)).foldl compress h) ∧ t.phase = s.phaseAfter (i + k) ∧
      t.blk = s.blk := by
  induction k generalizing s i h b with
  | zero =>
    rw [repeatOp_succ, hs.execCompress_eq, andThen_next, hs.foldl_compress_succ]
    exact ⟨s.afterBlock i (compress h b), rfl, rfl, rfl, rfl⟩
  | succ k ih =>
    have hidx : i + (k + 1) = i + 1 + k := by omega
    rw [hidx] at hk ⊢
    obtain ⟨b', hb'⟩ : ∃ b', s.blk[i + 1]? = some b' := ⟨_, List.getElem?_eq_getElem (by omega)⟩
    have hnext : BeforeBlock (s.afterBlock i (compress h b)) (i + 1) (compress h b) b' := hs.afterBlock (by omega) hb'
    rw [repeatOp_succ, hs.execCompress_eq, andThen_next, hs.foldl_compress_succ]
    simpa using ih hnext (by simpa using hwf) (by simpa using hk)

/-- What `k` COMPRESS from Initialized leave, with the words `h` in H before the first: the fold over the first `k`
blocks in H, PHASE past block `k - 1`, the blocks as they were. -/
structure FoldedBlocks (s : State) (h : Words8) (k : Nat) (t : State) : Prop where
  hash : t.H = cellsOf ((s.blk.take k).foldl compress h)
  phase : 1 ≤ k → t.phase = if k < s.nblk then .processing k else .finalized
  blk : t.blk = s.blk

theorem repeatOp_compress_of_initialized {k : Nat} (hs : s.stage = .parsed) (hp : s.phase = .initialized)
    (hH : s.H = cellsOf h) (hwf : s.nblk = s.blk.length) (hk : k ≤ s.nblk) :
    ∃ t, repeatOp (exec .compress) k s = .next t ∧ FoldedBlocks s h k t := by
  cases k with
  | zero => exact ⟨s, rfl, hH, fun hone => absurd hone (by decide), rfl⟩
  | succ k =>
    have hfirst : BeforeBlock s 0 h (s.blk[0]'(by omega)) :=
      ⟨hs, .inl ⟨hp, rfl⟩, hH, by omega, List.getElem?_eq_getElem _⟩
    obtain ⟨t, ht, hhash, hphase, hblk⟩ := hfirst.repeatOp_execCompress (k := k) hwf (by omega)
    rw [Nat.zero_add] at hphase
    exact ⟨t, ht, hhash, fun _ => hphase, hblk⟩

theorem digestPort_of_finalized (hp : s.phase = .finalized) (hH : s.H = cellsOf h) :
    s.digestPort = some (digestBytes h) := by
  simp [State.digestPort, hp, hH]

namespace FoldedBlocks

variable {s' t' : State} {k : Nat}

theorem finalized (hf : FoldedBlocks s h k t) (hone : 1 ≤ k) (hk : k = s.nblk) : t.phase = .finalized :=
  (hf.phase hone).trans (if_neg (by omega))

/-- When the blocks folded are all there are, the digest is that of the fold over them. -/
theorem digestPort_eq (hf : FoldedBlocks s h k t) (hone : 1 ≤ k) (hk : k = s.nblk) :
    t.digestPort = some (digestBytes ((s.blk.take k).foldl compress h)) :=
  digestPort_of_finalized (hf.finalized hone hk) hf.hash

/-- Two runs over the same blocks from the same words end with the same H and, with no block left, the same digest
(43_compressor.md R150). -/
theorem agree (hf : FoldedBlocks s h k t) (hf' : FoldedBlocks s' h k t') (hblk : s.blk.take k = s'.blk.take k) :
    t.H = t'.H ∧ (1 ≤ k → k = s.nblk → k = s'.nblk →
      t.phase = .finalized ∧ t'.phase = .finalized ∧ t.digestPort = t'.digestPort) := by
  refine ⟨by rw [hf.hash, hf'.hash, hblk], fun hone hk hk' => ?_⟩
  exact ⟨hf.finalized hone hk, hf'.finalized hone hk', by
    rw [hf.digestPort_eq hone hk, hf'.digestPort_eq hone hk', hblk]⟩

end FoldedBlocks

/-- Settles O40: by induction on the number of blocks, COMPRESS standing before the next block after each. -/
theorem blocksFoldInOrder : Obligations.BlocksFoldInOrder := by
  intro s h k hs hp hH hwf hone hk
  obtain ⟨t, ht, hf⟩ := repeatOp_compress_of_initialized hs hp hH hwf hk
  refine ⟨t, ht, hf.hash, hf.phase hone, hf.blk, fun hall => ?_⟩
  have htake : s.blk.take k = s.blk := List.take_of_length_le (by omega)
  rw [hf.digestPort_eq hone hall, htake]

theorem execInit_eq (hs : s.stage = .parsed) (hp : s.phase = .uninitialized) :
    exec .init s = .next ((s.writeH H0).setPhase .initialized) :=
  if_pos ⟨hs, hp⟩

/-- Settles O59: each run leaves the fold over its first `k` blocks, from the words given or from those INIT writes. -/
theorem equalBlocksEqualHashState : Obligations.EqualBlocksEqualHashState := by
  constructor
  · intro s s' h k hs hs' hp hp' hH hH' hwf hwf' hk hk' hblk
    obtain ⟨t, ht, hf⟩ := repeatOp_compress_of_initialized hs hp hH hwf hk
    obtain ⟨t', ht', hf'⟩ := repeatOp_compress_of_initialized hs' hp' hH' hwf' hk'
    exact ⟨t, t', ht, ht', hf.agree hf' hblk⟩
  · intro s s' k hs hs' hp hp' hwf hwf' hk hk' hblk
    rw [execInit_eq hs hp, execInit_eq hs' hp', andThen_next, andThen_next]
    obtain ⟨t, ht, hf⟩ := repeatOp_compress_of_initialized (s := (s.writeH H0).setPhase .initialized)
      hs rfl rfl hwf hk
    obtain ⟨t', ht', hf'⟩ := repeatOp_compress_of_initialized (s := (s'.writeH H0).setPhase .initialized)
      hs' rfl rfl hwf' hk'
    have hagree := hf.agree hf' hblk
    exact ⟨t, t', ht, ht', hagree⟩

end Sys2Proof.Machine
end

section
/-! SUPPORT. Where HASH ends: with the digest `hash(m)`, from any state. O48. -/

namespace Sys2Proof.Machine

variable {s t : State} {cfg : Config} {m : List Byte}

/-- After PARSE, the compressor's part of HASH presents the fold from H0 over the blocks, also when there is none
(43_compressor.md R143, R144). -/
theorem hashBlocks_digestPort (h : hashBlocks s = .next t) (hs : s.stage = .parsed)
    (hwf : s.nblk = s.blk.length) : t.digestPort = some (digestBytes (s.blk.foldl compress H0)) := by
  obtain ⟨hfailed, -⟩ | ⟨-, u, hu, hrun⟩ := hashBlocks_next h
  · simp [hs] at hfailed
  obtain ⟨-, -, rfl⟩ := execInit_next hu
  obtain ⟨hzero, hfinal⟩ | ⟨hblocks, hcompress⟩ := hrun
  · obtain ⟨-, -, -, rfl⟩ := execFinal_next hfinal
    have hnone : s.blk = [] := List.length_eq_zero_iff.mp (hwf.symm.trans hzero)
    rw [hnone]
    exact digestPort_of_finalized rfl rfl
  · obtain ⟨t', ht', hfolded⟩ := repeatOp_compress_of_initialized (s := (s.writeH H0).setPhase .initialized)
      hs rfl rfl hwf le_rfl
    obtain rfl : t' = t := by simpa using ht'.symm.trans hcompress
    have htake : s.blk.take s.nblk = s.blk := List.take_of_length_le hwf.ge
    have hdigest := hfolded.digestPort_eq (Nat.one_le_iff_ne_zero.mpr hblocks) rfl
    simpa [htake] using hdigest

/-- The compressor's part of HASH starts from the blocks of the padded message: a padded buffer has whole blocks, so
PARSE does not fail (44_top.md R172, 42_parser.md R121). -/
theorem hashOp_next_parsed (h : hashOp cfg m s = .next t) :
    ∃ w, w.stage = .parsed ∧ w.blk = blocksOf (padded cfg m) ∧ w.nblk = w.blk.length ∧ hashBlocks w = .next t := by
  obtain ⟨-, u, v, w, hload, hpad, hparse, hrest⟩ := hashOp_next h
  obtain ⟨-, -, rfl⟩ := loadMsgOp_next hload
  obtain ⟨-, -, -, rfl⟩ := padOp_next hpad
  obtain ⟨-, -, ⟨hoff, -⟩ | ⟨-, rfl⟩⟩ := execParse_next hparse
  · exact absurd (padded_length_mod cfg m) (by simpa using hoff)
  · exact ⟨_, rfl, by simp, rfl, hrest⟩

/-- Whatever the state HASH starts from, the digest it presents is `hash(m)` (44_top.md R173). -/
theorem hashOp_digestPort (h : hashOp cfg m s = .next t) : t.digestPort = some (hashOf cfg m) := by
  obtain ⟨w, hstage, hblk, hwf, hrest⟩ := hashOp_next_parsed h
  rw [hashBlocks_digestPort hrest hstage hwf, hblk, hashOf]

theorem hashOf_length (cfg : Config) (m : List Byte) : (hashOf cfg m).length = 32 := digestBytes_length _

/-- Settles O48: both runs of HASH end with `hash(m)` on the DIGEST port, and a digest has 32 bytes. -/
theorem digestHas32BytesAndIsDeterministic : Obligations.DigestHas32BytesAndIsDeterministic := by
  refine ⟨hashOf_length, fun s s' t t' m h h' => ?_⟩
  have hdigest : t.digestPort = some (hashOf Config.chip m) := hashOp_digestPort h
  have hdigest' : t'.digestPort = some (hashOf Config.chip m) := hashOp_digestPort h'
  exact ⟨hdigest.trans hdigest'.symm, hashOf Config.chip m, hdigest, hashOf_length _ _⟩

end Sys2Proof.Machine
end

section
/-! SUPPORT. What a failed run can still do, and O54. -/

namespace Sys2Proof.Machine

variable {s t : State}

/-- In S_FAILED the operations of format FN are the only ones with a next state, besides CLEAR and HASH: every other
operation needs another STAGE (44_top.md R177), and an FN operation writes its word alone (40_logic.md R91). -/
theorem exec_next_of_failed {i : Instr} (hs : s.stage = .failed) (h : exec i s = .next t) (hclear : i ≠ .clear)
    (hhash : ∀ m, i ≠ .hash m) : ∃ r, t = s.setFnOut r := by
  cases i with
  | add32 x y => exact ⟨_, giveWord_next h⟩
  | rotr n x => exact ⟨_, (execRotr_next h).2⟩
  | shr n x => exact ⟨_, (execShr_next h).2⟩
  | ssigma0 x => exact ⟨_, giveWord_next h⟩
  | ssigma1 x => exact ⟨_, giveWord_next h⟩
  | lsigma0 x => exact ⟨_, giveWord_next h⟩
  | lsigma1 x => exact ⟨_, giveWord_next h⟩
  | ch x y z => exact ⟨_, giveWord_next h⟩
  | maj x y z => exact ⟨_, giveWord_next h⟩
  | pad => nomatch hs.symm.trans (padOp_next h).1
  | parse => nomatch hs.symm.trans (execParse_next h).1
  | init => nomatch hs.symm.trans (execInit_next h).1
  | sched => nomatch hs.symm.trans (execSched_next h).1
  | load => nomatch hs.symm.trans (execLoad_next h).1
  | round => nomatch hs.symm.trans (execRound_next h).1
  | fold => nomatch hs.symm.trans (execFold_next h).1
  | final => nomatch hs.symm.trans (execFinal_next h).1
  | compress =>
    obtain ⟨_, _, _, hbefore, -⟩ := execCompress_eq_next.mp h
    nomatch hs.symm.trans hbefore.stage
  | clear => exact absurd rfl hclear
  | loadmsg m => nomatch hs.symm.trans (loadMsgOp_next h).1
  | loadpb p => nomatch hs.symm.trans (execLoadpb_next h).1
  | hash m => exact absurd rfl (hhash m)

/-- The compressor runs in S_PARSED alone, so in any other STAGE it has not started (10_state.md R19, R28). -/
theorem phase_eq_uninitialized_of_stateInv (hinv : StateInv s) (hs : s.stage ≠ .parsed) :
    s.phase = .uninitialized := by
  obtain ⟨-, -, hphase, -⟩ := hinv
  cases hp : s.phase with
  | uninitialized => rfl
  | initialized | processing | finalized =>
    simp only [phaseInv, hp] at hphase
    exact absurd hphase.1 hs

/-- The DIGEST port holds no value before the compressor has started (10_state.md R23). -/
theorem digestPort_of_uninitialized (hp : s.phase = .uninitialized) : s.digestPort = none := by
  simp [State.digestPort, hp]

/-- Settles O54: in S_FAILED the compressor has not started, and only an FN operation has a next state, which keeps
STAGE, ERR and PHASE. -/
theorem failedStaysFailed : Obligations.FailedStaysFailed := by
  intro i s t hinv hs h hclear hhash
  have hphase : s.phase = .uninitialized := phase_eq_uninitialized_of_stateInv hinv (by simp [hs])
  obtain ⟨-, -, -, herr⟩ := hinv
  obtain ⟨r, rfl⟩ := exec_next_of_failed hs h hclear hhash
  refine ⟨hs, herr.mpr hs, digestPort_of_uninitialized hphase, digestPort_of_uninitialized hphase, ?_⟩
  simp [succeeded, hphase]

end Sys2Proof.Machine
end

section
/-! SUPPORT. The two invariants of the machine are kept by every step: O57 and O58. -/

namespace Sys2Proof.Machine

variable {s t : State} {cfg : Config} {P : State → Prop}

/-! ## A property that every step keeps -/

/-- The operation leads from states with `P` to states with `P` alone. -/
def Keeps (P : State → Prop) (f : State → Result) : Prop := ∀ s t, P s → f s = .next t → P t

/-- `P` is kept by the operations that the others are made of (44_top.md R172, 43_compressor.md R142), and does not
speak of the model's own fields. -/
structure KeptByOps (P : State → Prop) : Prop where
  port (s : State) (p : List Command) : P s → P { s with port := p }
  fnOut (s : State) (r : Word) : P s → P (s.setFnOut r)
  clear (s : State) : P s.clear
  loadmsg (m : List Byte) : Keeps P (execLoadmsg m)
  loadpb (p : List Byte) : Keeps P (execLoadpb p)
  pad : Keeps P execPad
  parse : Keeps P execParse
  init : Keeps P execInit
  sched : Keeps P execSched
  load : Keeps P execLoad
  round : Keeps P execRound
  fold : Keeps P execFold
  final : Keeps P execFinal

/-- An operation of format FN writes its word alone (40_logic.md R91). -/
theorem exec_fn_next {i : Instr} (hi : formatOf i = .fn) (h : exec i s = .next t) : ∃ r, t = s.setFnOut r := by
  cases i with
  | rotr n x => exact ⟨_, (execRotr_next h).2⟩
  | shr n x => exact ⟨_, (execShr_next h).2⟩
  | add32 | ssigma0 | ssigma1 | lsigma0 | lsigma1 | ch | maj => exact ⟨_, giveWord_next h⟩
  | pad | parse | init | sched | load | round | fold | final | compress | clear | loadmsg | loadpb | hash => cases hi

namespace KeptByOps

theorem keeps_compress (hP : KeptByOps P) : Keeps P execCompress := by
  intro s t hs h
  obtain ⟨u, v, w, hu, hv, hw, ht⟩ := compressBlock_next (execCompress_next h)
  have hPu : P u := hP.sched s u hs hu
  have hPv : P v := hP.load u v hPu hv
  have hPw : P w := repeatOp_keeps hP.round 64 v w hPv hw
  exact hP.fold w t hPw ht

theorem keeps_hash (hP : KeptByOps P) (m : List Byte) : Keeps P (execHash m) := by
  intro s t _ h
  obtain ⟨-, u, v, w, hu, hv, hw, ht⟩ := hashOp_next h
  have hPw : P w := hP.parse v w (hP.pad u v (hP.loadmsg m _ u (hP.clear s) hu) hv) hw
  obtain ⟨-, rfl⟩ | ⟨-, x, hx, hrun⟩ := hashBlocks_next ht
  · exact hPw
  have hPx : P x := hP.init w x hPw hx
  obtain ⟨-, hfinal⟩ | ⟨-, hblocks⟩ := hrun
  · exact hP.final x t hPx hfinal
  · exact repeatOp_keeps hP.keeps_compress _ x t hPx hblocks

theorem keeps_exec (hP : KeptByOps P) (i : Instr) : Keeps P (exec i) := by
  intro s t hs h
  cases i with
  | add32 | rotr | shr | ssigma0 | ssigma1 | lsigma0 | lsigma1 | ch | maj =>
    obtain ⟨r, rfl⟩ := exec_fn_next rfl h
    exact hP.fnOut s r hs
  | pad => exact hP.pad s t hs h
  | parse => exact hP.parse s t hs h
  | init => exact hP.init s t hs h
  | sched => exact hP.sched s t hs h
  | load => exact hP.load s t hs h
  | round => exact hP.round s t hs h
  | fold => exact hP.fold s t hs h
  | final => exact hP.final s t hs h
  | compress => exact hP.keeps_compress s t hs h
  | clear => cases h; exact hP.clear s
  | loadmsg m => exact hP.loadmsg m s t hs h
  | loadpb p => exact hP.loadpb p s t hs h
  | hash m => exact hP.keeps_hash m s t hs h

theorem keeps_step (hP : KeptByOps P) : Keeps P step := by
  intro s t hs h
  obtain ⟨-, rfl⟩ | ⟨c, rest, i, -, -, hi⟩ := step_next h
  · exact hs
  · exact hP.keeps_exec i _ t (hP.port s rest hs) hi

end KeptByOps

/-! ## The invariant of the state -/

/-- An operation that leaves the buffers and ERR needs to be looked at for PHASE, US and the register files alone. -/
theorem StateInv.of_buffersKept (hinv : StateInv s) (hk : BuffersKept s t) (herr : t.err = s.err)
    (hphase : phaseInv t) : StateInv t := by
  obtain ⟨hwf, hstage, -, hfail⟩ := hinv
  refine ⟨?_, ?_, hphase, by rw [herr, hk.stage]; exact hfail⟩
  · rw [Memory.wf, hk.mlen, hk.msg, hk.bitlen, hk.plen, hk.pb, hk.nblk, hk.blk]; exact hwf
  · rw [stageInv, hk.stage, hk.msg, hk.pb, hk.blk]; exact hstage

/-- What `phaseInv` says before the compressor has started does not speak of the buffers. -/
theorem phaseInv_of_uninitialized (hp : s.phase = .uninitialized) :
    phaseInv s ↔ NoneHolds s.H ∧ NoneHolds s.W ∧ NoneHolds s.R ∧ s.us = .sched := by
  simp only [phaseInv, hp]

/-- Outside S_PARSED the compressor has not started, so a new STAGE and new buffers leave `phaseInv`. -/
theorem phaseInv_of_not_parsed (hinv : StateInv s) (hs : s.stage ≠ .parsed) (hp : t.phase = s.phase)
    (hH : t.H = s.H) (hW : t.W = s.W) (hR : t.R = s.R) (hu : t.us = s.us) : phaseInv t := by
  have hun : s.phase = .uninitialized := phase_eq_uninitialized_of_stateInv hinv hs
  obtain ⟨-, -, hphase, -⟩ := hinv
  rw [phaseInv_of_uninitialized (hp.trans hun), hH, hW, hR, hu]
  exact (phaseInv_of_uninitialized hun).mp hphase

theorem err_eq_false_of_stateInv (hinv : StateInv s) (hs : s.stage ≠ .failed) : s.err = false := by
  obtain ⟨-, -, -, hfail⟩ := hinv
  exact Bool.eq_false_iff.mpr fun herr => hs (hfail.mp herr)

theorem stateInv_clear (s : State) : StateInv s.clear :=
  ⟨wf_clear s, ⟨rfl, rfl, rfl⟩, ⟨noneHolds_noval, noneHolds_noval, noneHolds_noval, rfl⟩, by simp⟩

theorem loadMsgOp_keeps_stateInv (m : List Byte) : Keeps StateInv (loadMsgOp cfg m) := by
  intro s t hinv h
  obtain ⟨hs, ⟨-, hbits⟩, rfl⟩ := loadMsgOp_next h
  have hphase := phaseInv_of_not_parsed (t := (s.storeMsg m).setStage .msg) hinv (by simp [hs]) rfl rfl rfl rfl rfl
  have herr := err_eq_false_of_stateInv hinv (by simp [hs])
  obtain ⟨hwf, hstage, -, -⟩ := hinv
  simp only [stageInv, hs] at hstage
  exact ⟨wf_setStage _ (wf_storeMsg hbits hwf), hstage.2, hphase, by simp [herr]⟩

theorem execLoadpb_keeps_stateInv (p : List Byte) : Keeps StateInv (execLoadpb p) := by
  intro s t hinv h
  obtain ⟨hs, rfl⟩ := execLoadpb_next h
  have hphase := phaseInv_of_not_parsed (t := (s.storePb p).setStage .padded) hinv (by simp [hs]) rfl rfl rfl rfl rfl
  have herr := err_eq_false_of_stateInv hinv (by simp [hs])
  obtain ⟨hwf, hstage, -, -⟩ := hinv
  simp only [stageInv, hs] at hstage
  obtain ⟨-, -, hblk⟩ := hstage
  exact ⟨wf_setStage _ (wf_storePb p hwf), hblk, hphase, by simp [herr]⟩

theorem padOp_keeps_stateInv : Keeps StateInv (padOp cfg) := by
  intro s t hinv h
  obtain ⟨hs, -, -, rfl⟩ := padOp_next h
  have hphase := phaseInv_of_not_parsed (t := (s.storePb (padded cfg (s.msg.take s.mlen))).setStage .padded) hinv
    (by simp [hs]) rfl rfl rfl rfl rfl
  have herr := err_eq_false_of_stateInv hinv (by simp [hs])
  obtain ⟨hwf, hstage, -, -⟩ := hinv
  simp only [stageInv, hs] at hstage
  exact ⟨wf_setStage _ (wf_storePb _ hwf), hstage.2, hphase, by simp [herr]⟩

theorem execParse_keeps_stateInv : Keeps StateInv execParse := by
  intro s t hinv h
  obtain ⟨hs, -, hcase⟩ := execParse_next h
  have hphase (t : State) := phaseInv_of_not_parsed (t := t) hinv (by simp [hs])
  have herr := err_eq_false_of_stateInv hinv (by simp [hs])
  obtain ⟨hwf, hstage, -, -⟩ := hinv
  have ⟨_, _, hplen, _⟩ := hwf
  simp only [stageInv, hs] at hstage
  obtain ⟨hoff, rfl⟩ | ⟨hwhole, rfl⟩ := hcase
  · exact ⟨wf_raiseInvalidInputLength hwf, ⟨hstage, hplen ▸ hoff⟩, hphase _ rfl rfl rfl rfl rfl, by simp⟩
  · have hlen : s.pb.length = 64 * (blocksOf (s.pb.take s.plen)).length := by
      rw [blocksOf_length, hplen, List.take_length]; omega
    exact ⟨wf_setStage _ (wf_storeBlk _ hwf), hlen, hphase _ rfl rfl rfl rfl rfl, by simp [herr]⟩

theorem execInit_keeps_stateInv : Keeps StateInv execInit := by
  intro s t hinv h
  have hk := execInit_buffersKept h
  obtain ⟨hs, hp, rfl⟩ := execInit_next h
  refine hinv.of_buffersKept hk rfl ?_
  obtain ⟨-, -, hphase, -⟩ := hinv
  obtain ⟨-, hW, hR, hu⟩ := (phaseInv_of_uninitialized hp).mp hphase
  exact ⟨hs, allHold_cellsOf _, hW, hR, hu⟩

theorem execSched_keeps_stateInv : Keeps StateInv execSched := by
  intro s t hinv h
  have hk := execSched_buffersKept h
  obtain ⟨hs, i, b, hstart, hi, -, rfl⟩ := execSched_next h
  refine hinv.of_buffersKept hk rfl ?_
  obtain ⟨-, -, hphase, -⟩ := hinv
  obtain ⟨hp, rfl⟩ | ⟨hp, hu⟩ := hstart
  · simp only [phaseInv, hp] at hphase
    obtain ⟨-, hH, -, hR, -⟩ := hphase
    exact ⟨hs, hH, hi, allHold_cellsOf _, hR⟩
  · simp only [phaseInv, hp, hu] at hphase
    obtain ⟨-, hH, -, -, -, hR⟩ := hphase
    exact ⟨hs, hH, hi, allHold_cellsOf _, hR⟩

theorem execLoad_keeps_stateInv : Keeps StateInv execLoad := by
  intro s t hinv h
  have hk := execLoad_buffersKept h
  obtain ⟨hs, i, w, hp, hu, -, rfl⟩ := execLoad_next h
  refine hinv.of_buffersKept hk rfl ?_
  obtain ⟨-, -, hphase, -⟩ := hinv
  simp only [phaseInv, hp, hu] at hphase
  obtain ⟨-, hH, hi, hW, -⟩ := hphase
  simp [phaseInv, hp, hs, hH, hi, hW]

theorem execRound_keeps_stateInv : Keeps StateInv execRound := by
  intro s t hinv h
  have hk := execRound_buffersKept h
  obtain ⟨hs, i, k, r, w, hp, hu, -, -, rfl⟩ := execRound_next h
  refine hinv.of_buffersKept hk rfl ?_
  obtain ⟨-, -, hphase, -⟩ := hinv
  simp only [phaseInv, hp, hu] at hphase
  obtain ⟨-, hH, hi, hW, -⟩ := hphase
  obtain ⟨_, hnext⟩ | ⟨-, hnext⟩ := afterRound_eq k <;> simp [phaseInv, hnext, hp, hs, hH, hi, hW]

theorem execFold_keeps_stateInv : Keeps StateInv execFold := by
  intro s t hinv h
  have hk := execFold_buffersKept h
  obtain ⟨hs, i, x, r, hp, hu, -, -, hi, rfl⟩ := execFold_next h
  refine hinv.of_buffersKept hk rfl ?_
  by_cases hnext : i + 1 < s.nblk
  · simp [phaseInv, hnext, hs]
  · simp [phaseInv, hnext, hs]

theorem execFinal_keeps_stateInv : Keeps StateInv execFinal := by
  intro s t hinv h
  have hk := execFinal_buffersKept h
  obtain ⟨hs, hp, -, rfl⟩ := execFinal_next h
  refine hinv.of_buffersKept hk rfl ?_
  obtain ⟨-, -, hphase, -⟩ := hinv
  simp only [phaseInv, hp] at hphase
  exact hphase

theorem stateInv_keptByOps : KeptByOps StateInv where
  port _ _ h := h
  fnOut _ _ h := h
  clear := stateInv_clear
  loadmsg := loadMsgOp_keeps_stateInv
  loadpb := execLoadpb_keeps_stateInv
  pad := padOp_keeps_stateInv
  parse := execParse_keeps_stateInv
  init := execInit_keeps_stateInv
  sched := execSched_keeps_stateInv
  load := execLoad_keeps_stateInv
  round := execRound_keeps_stateInv
  fold := execFold_keeps_stateInv
  final := execFinal_keeps_stateInv

/-- Settles O57: each operation that the others are made of keeps the invariant. -/
theorem stepKeepsInv : Obligations.StepKeepsInv := stateInv_keptByOps.keeps_step

/-! ## The invariant of the hash -/

/-- BLK is the parse of PB, and PB the padding of the message, whenever STAGE says they are written. -/
def buffersInv (cfg : Config) (s : State) : Prop :=
  (s.stage = .parsed → s.blk = blocksOf s.pb) ∧
    (s.msg ≠ [] → s.stage = .padded ∨ s.stage = .parsed ∨ s.stage = .failed → s.pb = padded cfg s.msg)

theorem hashInv_iff : HashInv cfg s ↔ StateInv s ∧ buffersInv cfg s ∧ chainInv s := by
  simp only [HashInv, buffersInv, and_assoc]

/-- An operation that leaves the buffers needs to be looked at for the two other parts alone. -/
theorem HashInv.of_buffersKept (hinv : HashInv cfg s) (hk : BuffersKept s t) (ht : StateInv t) (hchain : chainInv t) :
    HashInv cfg t := by
  obtain ⟨-, hbuf, -⟩ := hashInv_iff.mp hinv
  refine hashInv_iff.mpr ⟨ht, ?_, hchain⟩
  rw [buffersInv, hk.stage, hk.blk, hk.pb, hk.msg]
  exact hbuf

/-- Outside S_PARSED the compressor has not started, and the registers are not spoken of. -/
theorem chainInv_of_not_parsed (hinv : StateInv s) (hs : s.stage ≠ .parsed) (hp : t.phase = s.phase) :
    chainInv t := by
  simp only [chainInv, hp.trans (phase_eq_uninitialized_of_stateInv hinv hs)]

theorem loadMsgOp_keeps_hashInv (m : List Byte) : Keeps (HashInv cfg) (loadMsgOp cfg m) := by
  intro s t hinv h
  obtain ⟨hst, -, -⟩ := hashInv_iff.mp hinv
  have ht := loadMsgOp_keeps_stateInv m s t hst h
  obtain ⟨hs, -, rfl⟩ := loadMsgOp_next h
  exact hashInv_iff.mpr ⟨ht, by simp [buffersInv], chainInv_of_not_parsed hst (by simp [hs]) rfl⟩

/-- With LOADPB the message is empty (44_top.md R179). -/
theorem execLoadpb_keeps_hashInv (p : List Byte) : Keeps (HashInv cfg) (execLoadpb p) := by
  intro s t hinv h
  obtain ⟨hst, -, -⟩ := hashInv_iff.mp hinv
  have ht := execLoadpb_keeps_stateInv p s t hst h
  obtain ⟨hs, rfl⟩ := execLoadpb_next h
  have hmsg : s.msg = [] := by
    obtain ⟨-, hstage, -⟩ := hst
    simp only [stageInv, hs] at hstage
    exact hstage.1
  exact hashInv_iff.mpr ⟨ht, by simp [buffersInv, hmsg], chainInv_of_not_parsed hst (by simp [hs]) rfl⟩

theorem padOp_keeps_hashInv : Keeps (HashInv cfg) (padOp cfg) := by
  intro s t hinv h
  obtain ⟨hst, -, -⟩ := hashInv_iff.mp hinv
  have ht := padOp_keeps_stateInv s t hst h
  obtain ⟨hs, -, -, rfl⟩ := padOp_next h
  have hmlen : s.mlen = s.msg.length := by
    obtain ⟨⟨hmlen, -⟩, -⟩ := hst
    exact hmlen
  exact hashInv_iff.mpr ⟨ht, by simp [buffersInv, hmlen], chainInv_of_not_parsed hst (by simp [hs]) rfl⟩

theorem execParse_keeps_hashInv : Keeps (HashInv cfg) execParse := by
  intro s t hinv h
  obtain ⟨hst, ⟨-, hpb⟩, -⟩ := hashInv_iff.mp hinv
  have ht := execParse_keeps_stateInv s t hst h
  obtain ⟨hs, -, hcase⟩ := execParse_next h
  have hplen : s.plen = s.pb.length := by
    obtain ⟨⟨-, -, hplen, -⟩, -⟩ := hst
    exact hplen
  have hchain (t : State) := chainInv_of_not_parsed (t := t) hst (by simp [hs])
  obtain ⟨-, rfl⟩ | ⟨-, rfl⟩ := hcase
  · exact hashInv_iff.mpr ⟨ht, ⟨nofun, fun hm _ => hpb hm (.inl hs)⟩, hchain _ rfl⟩
  · exact hashInv_iff.mpr ⟨ht, ⟨fun _ => by simp [hplen], fun hm _ => hpb hm (.inl hs)⟩, hchain _ rfl⟩

theorem execInit_keeps_hashInv : Keeps (HashInv cfg) execInit := by
  intro s t hinv h
  refine hinv.of_buffersKept (execInit_buffersKept h) (execInit_keeps_stateInv s t hinv.1 h) ?_
  obtain ⟨-, -, rfl⟩ := execInit_next h
  rfl

theorem execSched_keeps_hashInv : Keeps (HashInv cfg) execSched := by
  intro s t hinv h
  refine hinv.of_buffersKept (execSched_buffersKept h) (execSched_keeps_stateInv s t hinv.1 h) ?_
  obtain ⟨-, -, hchain⟩ := hashInv_iff.mp hinv
  obtain ⟨-, i, b, hstart, -, hb, rfl⟩ := execSched_next h
  obtain ⟨hp, rfl⟩ | ⟨hp, hu⟩ := hstart
  · simp only [chainInv, hp] at hchain
    exact ⟨hchain, b, hb, rfl⟩
  · simp only [chainInv, hp] at hchain
    exact ⟨hchain.1, b, hb, rfl⟩

/-- LOAD starts the rounds from the chaining value. -/
theorem execLoad_keeps_hashInv : Keeps (HashInv cfg) execLoad := by
  intro s t hinv h
  refine hinv.of_buffersKept (execLoad_buffersKept h) (execLoad_keeps_stateInv s t hinv.1 h) ?_
  obtain ⟨-, -, hchain⟩ := hashInv_iff.mp hinv
  obtain ⟨-, i, w, hp, hu, hw, rfl⟩ := execLoad_next h
  simp only [chainInv, hp, hu] at hchain
  obtain ⟨hH, b, hb, hW⟩ := hchain
  have hR : cellsOf w = cellsOf (chain s.blk i) := hw.symm.trans hH
  simp [chainInv, hp, hH, hb, hW, hR]

/-- ROUND does one more of the rounds, with the schedule word of its own index. -/
theorem execRound_keeps_hashInv : Keeps (HashInv cfg) execRound := by
  intro s t hinv h
  refine hinv.of_buffersKept (execRound_buffersKept h) (execRound_keeps_stateInv s t hinv.1 h) ?_
  obtain ⟨-, -, hchain⟩ := hashInv_iff.mp hinv
  obtain ⟨-, i, k, r, w, hp, hu, hr, hw, rfl⟩ := execRound_next h
  simp only [chainInv, hp, hu] at hchain
  obtain ⟨hH, b, hb, hW, hR⟩ := hchain
  obtain rfl : r = _ := cellsOf_injective (hr.symm.trans hR)
  obtain rfl : (schedule b)[k] = w := by simpa [hW] using hw
  obtain ⟨hlt, hnext⟩ | ⟨hlast, hnext⟩ := afterRound_eq k
  · simp [chainInv, hp, hnext, hH, hb, hW, roundsUpTo_succ]
  · obtain rfl : k = 63 := by omega
    simp [chainInv, hp, hnext, hH, hb, hW, roundsUpTo_succ _ _ 63]

/-- FOLD ends the transition of the block, so H holds the next chaining value. -/
theorem execFold_keeps_hashInv : Keeps (HashInv cfg) execFold := by
  intro s t hinv h
  refine hinv.of_buffersKept (execFold_buffersKept h) (execFold_keeps_stateInv s t hinv.1 h) ?_
  obtain ⟨⟨⟨-, -, -, hnblk⟩, -⟩, -, hchain⟩ := hashInv_iff.mp hinv
  obtain ⟨-, i, x, r, hp, hu, hx, hr, hi, rfl⟩ := execFold_next h
  simp only [chainInv, hp, hu] at hchain
  obtain ⟨hH, b, hb, -, hR⟩ := hchain
  obtain rfl : x = _ := cellsOf_injective (hx.symm.trans hH)
  obtain rfl : r = _ := cellsOf_injective (hr.symm.trans hR)
  have hfold : foldWords (chain s.blk i) (roundsUpTo (schedule b) (chain s.blk i) 64 (by omega)) =
      chain s.blk (i + 1) := (chain_succ hb).symm
  by_cases hnext : i + 1 < s.nblk
  · simp [chainInv, hnext, hfold]
  · have hlast : i + 1 = s.blk.length := by omega
    simp [chainInv, hnext, hfold, ← hlast]

/-- With no block the chaining value is H0. -/
theorem execFinal_keeps_hashInv : Keeps (HashInv cfg) execFinal := by
  intro s t hinv h
  refine hinv.of_buffersKept (execFinal_buffersKept h) (execFinal_keeps_stateInv s t hinv.1 h) ?_
  obtain ⟨⟨⟨-, -, -, hnblk⟩, -⟩, -, hchain⟩ := hashInv_iff.mp hinv
  obtain ⟨-, hp, hzero, rfl⟩ := execFinal_next h
  simp only [chainInv, hp] at hchain
  have hlen : s.blk.length = 0 := hnblk.symm.trans hzero
  simp [chainInv, hchain, hlen]

theorem hashInv_keptByOps : KeptByOps (HashInv Config.chip) where
  port _ _ h := h
  fnOut _ _ h := h
  clear s := hashInv_iff.mpr ⟨stateInv_clear s, by simp [buffersInv], trivial⟩
  loadmsg := loadMsgOp_keeps_hashInv
  loadpb := execLoadpb_keeps_hashInv
  pad := padOp_keeps_hashInv
  parse := execParse_keeps_hashInv
  init := execInit_keeps_hashInv
  sched := execSched_keeps_hashInv
  load := execLoad_keeps_hashInv
  round := execRound_keeps_hashInv
  fold := execFold_keeps_hashInv
  final := execFinal_keeps_hashInv

/-- Settles O58: each operation that the others are made of keeps the invariant. -/
theorem stepKeepsHashInv : Obligations.StepKeepsHashInv := hashInv_keptByOps.keeps_step

end Sys2Proof.Machine
end

section
/-! SUPPORT. The logic unit, bit by bit and as numbers: O1 to O10. -/

namespace Sys2Proof.Machine

variable {n k : Nat} {x y z : Word} {s : State}

/-! ## The nine operations give their words -/

theorem execRotr_eq (hn : n ≤ 31) : exec (.rotr n x) s = .next (s.setFnOut (rotr n x)) := if_pos hn

theorem execRotr_refused (hn : 32 ≤ n) : exec (.rotr n x) s = .refused (.amountOutOfRange n) := if_neg (by omega)

theorem execShr_eq (hn : n ≤ 31) : exec (.shr n x) s = .next (s.setFnOut (shr n x)) := if_pos hn

theorem execShr_refused (hn : 32 ≤ n) : exec (.shr n x) s = .refused (.amountOutOfRange n) := if_neg (by omega)

/-- Presenting a word leaves ERR, so an operation that does nothing else has a row of format FN. -/
theorem fnRow_of_exec {i : Instr} {opid : Byte} {r : Word} (hopid : (encode i).opid = opid) (hf : formatOf i = .fn)
    (hexec : ∀ s, exec i s = .next (s.setFnOut r)) : FnRow i opid :=
  ⟨hopid, hf, fun s => ⟨s.setFnOut r, hexec s, rfl⟩⟩

/-- Settles O10. -/
theorem fnOperationsGiveTheirWord : Obligations.FnOperationsGiveTheirWord := fun _ _ _ _ =>
  ⟨rfl, fun _ hn => execRotr_eq hn, fun _ hn => execShr_eq hn, rfl, rfl, rfl, rfl, rfl, rfl⟩

/-! ## Addition -/

theorem add32_toNat (x y : Word) : (add32 x y).toNat = (x.toNat + y.toNat) % 2 ^ 32 := BitVec.toNat_add x y

/-- Settles O1: two words are below 2^32 each, so the sum wraps once at most. -/
theorem add32IsSumModuloTwoPow32 : Obligations.Add32IsSumModuloTwoPow32 := by
  refine ⟨fun x y => fnRow_of_exec rfl rfl fun _ => rfl, add32_toNat, fun x y hlt => ?_, fun x y hge => ?_,
    fun x => BitVec.add_zero x, by decide, by decide, by decide, by decide, by decide⟩
  · rw [add32_toNat, Nat.mod_eq_of_lt hlt]
  · have hx := x.isLt
    have hy := y.isLt
    rw [add32_toNat]
    omega

/-! ## Rotation and shift -/

theorem rotr_getLsbD (hn : n ≤ 31) (hk : k < 32) (x : Word) : (rotr n x).getLsbD k = x.getLsbD ((k + n) % 32) := by
  have hmod : n % 32 = n := Nat.mod_eq_of_lt (by omega)
  rw [rotr, BitVec.getLsbD_rotateRight, hmod]
  by_cases hwrap : k < 32 - n
  · have hidx : (k + n) % 32 = n + k := by omega
    simp [hwrap, hidx]
  · have hidx : (k + n) % 32 = k - (32 - n) := by omega
    simp [hwrap, hidx, hk]

theorem shr_getLsbD (n k : Nat) (x : Word) : (shr n x).getLsbD k = x.getLsbD (k + n) := by
  rw [shr, BitVec.getLsbD_ushiftRight, Nat.add_comm]

/-- A bit past bit 31 is 0, which the rules of the shift write out (40_logic.md R84). -/
theorem shr_getLsbD_eq_decide (n k : Nat) (x : Word) :
    (shr n x).getLsbD k = (decide (k + n ≤ 31) && x.getLsbD (k + n)) := by
  rw [shr_getLsbD]
  by_cases hin : k + n ≤ 31
  · simp [hin]
  · simp [hin, BitVec.getLsbD_of_ge x (k + n) (by omega)]

theorem rotr_eq_or (hn : n ≤ 31) (x : Word) : rotr n x = x >>> n ||| x <<< (32 - n) := by
  rw [rotr, BitVec.rotateRight_def, Nat.mod_eq_of_lt (by omega)]

/-- The bits that leave at the bottom enter at the top, above those that stay. -/
theorem rotr_toNat (hn : n ≤ 31) (x : Word) :
    (rotr n x).toNat = x.toNat / 2 ^ n + x.toNat % 2 ^ n * 2 ^ (32 - n) := by
  have hpow : 2 ^ 32 = 2 ^ n * 2 ^ (32 - n) := by rw [← pow_add]; congr 1; omega
  have hlow : x.toNat / 2 ^ n < 2 ^ (32 - n) := Nat.div_lt_of_lt_mul (hpow ▸ x.isLt)
  have hhigh : x.toNat * 2 ^ (32 - n) % 2 ^ 32 = 2 ^ (32 - n) * (x.toNat % 2 ^ n) := by
    rw [hpow, Nat.mul_mod_mul_right, Nat.mul_comm]
  rw [rotr, BitVec.toNat_rotateRight, Nat.mod_eq_of_lt (by omega : n < 32), Nat.shiftRight_eq_div_pow,
    Nat.shiftLeft_eq, hhigh, Nat.or_comm, ← Nat.two_pow_add_eq_or_of_lt hlow]
  ring

/-- A rotation moves the bit positions around, so it keeps how many bits are 1. -/
theorem oneBits_rotr (hn : n ≤ 31) (x : Word) : oneBits (rotr n x) = oneBits x := by
  have hrotate : ((List.range 32).map fun k => (k + n) % 32) = (List.range 32).rotate n := by
    refine List.ext_getElem (by simp) fun k h1 h2 => ?_
    simp [List.getElem_rotate]
  calc oneBits (rotr n x)
      = (List.range 32).countP fun k => x.getLsbD ((k + n) % 32) := by
        refine List.countP_congr fun k hk => ?_
        rw [rotr_getLsbD hn (List.mem_range.mp hk)]
    _ = ((List.range 32).map fun k => (k + n) % 32).countP fun k => x.getLsbD k := by rw [List.countP_map]; rfl
    _ = oneBits x := by rw [hrotate, (List.rotate_perm _ _).countP_eq, oneBits]

theorem rotr_rotr {m : Nat} (hm : m ≤ 31) (hn : n ≤ 31) (x : Word) : rotr m (rotr n x) = rotr ((m + n) % 32) x := by
  refine BitVec.eq_of_getLsbD_eq fun k hk => ?_
  have hidx : ((k + m) % 32 + n) % 32 = (k + (m + n) % 32) % 32 := by omega
  rw [rotr_getLsbD hm hk, rotr_getLsbD hn (by omega), rotr_getLsbD (by omega) hk, hidx]

/-- A word whose bits are all the same is kept by every rotation. -/
theorem rotr_of_constant {b : Bool} (hn : n ≤ 31) (hx : ∀ k < 32, x.getLsbD k = b) : rotr n x = x := by
  refine BitVec.eq_of_getLsbD_eq fun k hk => ?_
  rw [rotr_getLsbD hn hk, hx _ (by omega), hx k hk]

theorem rotr_zero_amount (x : Word) : rotr 0 x = x := by
  refine BitVec.eq_of_getLsbD_eq fun k hk => ?_
  rw [rotr_getLsbD (by decide) hk, Nat.add_zero, Nat.mod_eq_of_lt hk]

/-- Settles O2: each clause is read off where a bit goes, but for the arithmetic one. -/
theorem rotrIsCircularRightRotation : Obligations.RotrIsCircularRightRotation := by
  refine ⟨fun n x hn => ⟨fnRow_of_exec rfl rfl fun _ => execRotr_eq hn, fun k hk => rotr_getLsbD hn hk x,
    rotr_toNat hn x, fun _ => rotr_eq_or hn x, oneBits_rotr hn x, ?_, ?_⟩, rotr_zero_amount,
    fun m n x hm hn => rotr_rotr hm hn x, fun n x s hn => execRotr_refused hn, by decide, by decide⟩
  · exact rotr_of_constant (b := false) hn (by decide)
  · exact rotr_of_constant (b := true) hn (by decide)

theorem shr_toNat (n : Nat) (x : Word) : (shr n x).toNat = x.toNat / 2 ^ n := by
  rw [shr, BitVec.toNat_ushiftRight, Nat.shiftRight_eq_div_pow]

/-- The top bit alone is left of a shift by 31. -/
theorem shr_31_toNat (x : Word) : (shr 31 x).toNat = (x.getLsbD 31).toNat := by
  have hx := x.isLt
  rw [shr_toNat, BitVec.getLsbD, Nat.testBit_eq_decide_div_mod_eq]
  by_cases htop : x.toNat / 2 ^ 31 % 2 = 1
  · simp only [htop, decide_true, Bool.toNat_true]; omega
  · simp only [htop, decide_false, Bool.toNat_false]; omega

/-- Settles O3: the arithmetic clauses from the division, the others from where a bit goes. -/
theorem shrIsFloorOfDivision : Obligations.ShrIsFloorOfDivision := by
  refine ⟨fun n x hn => ⟨fnRow_of_exec rfl rfl fun _ => execShr_eq hn, shr_toNat n x,
    fun k _ => shr_getLsbD_eq_decide n k x, fun y hxy => ?_, ?_, fun hpos => ?_⟩, fun x => BitVec.ushiftRight_zero x,
    shr_31_toNat, fun n x s hn => execShr_refused hn, by decide, by decide⟩
  · exact BitVec.eq_of_toNat_eq (by rw [shr_toNat, shr_toNat, hxy])
  · have htop : (0x80000000 : Word).toNat = 2 ^ 31 := by decide
    rw [shr_toNat, htop, Nat.pow_div hn (by decide)]
  · rw [shr_getLsbD]
    exact BitVec.getLsbD_of_ge _ _ (by omega)

/-! ## The four sigma functions -/

theorem rotr_xor (hn : n ≤ 31) (x y : Word) : rotr n (x ^^^ y) = rotr n x ^^^ rotr n y := by
  refine BitVec.eq_of_getLsbD_eq fun k hk => ?_
  rw [BitVec.getLsbD_xor, rotr_getLsbD hn hk, rotr_getLsbD hn hk, rotr_getLsbD hn hk, BitVec.getLsbD_xor]

theorem shr_xor (n : Nat) (x y : Word) : shr n (x ^^^ y) = shr n x ^^^ shr n y := BitVec.ushiftRight_xor_distrib x y n

/-- The XOR of three functions that are linear over XOR is so too. -/
theorem xor_three_linear {f g h : Word → Word} (hf : ∀ x y, f (x ^^^ y) = f x ^^^ f y)
    (hg : ∀ x y, g (x ^^^ y) = g x ^^^ g y) (hh : ∀ x y, h (x ^^^ y) = h x ^^^ h y) (x y : Word) :
    f (x ^^^ y) ^^^ g (x ^^^ y) ^^^ h (x ^^^ y) = (f x ^^^ g x ^^^ h x) ^^^ (f y ^^^ g y ^^^ h y) := by
  rw [hf, hg, hh]
  ac_rfl

/-- Settles O4: two rotations and a shift, each known bit by bit and linear. -/
theorem ssigma0BitByBit : Obligations.Ssigma0BitByBit := by
  refine ⟨fun x => fnRow_of_exec rfl rfl fun _ => rfl, fun _ => rfl, fun x k hk => ?_,
    xor_three_linear (rotr_xor (by decide)) (rotr_xor (by decide)) (shr_xor 3), by decide, by decide, by decide,
    by decide⟩
  rw [ssigma0, BitVec.getLsbD_xor, BitVec.getLsbD_xor, rotr_getLsbD (by decide) hk, rotr_getLsbD (by decide) hk,
    shr_getLsbD_eq_decide]

/-- Settles O5: two rotations and a shift, each known bit by bit and linear. -/
theorem ssigma1BitByBit : Obligations.Ssigma1BitByBit := by
  refine ⟨fun x => fnRow_of_exec rfl rfl fun _ => rfl, fun _ => rfl, fun x k hk => ?_,
    xor_three_linear (rotr_xor (by decide)) (rotr_xor (by decide)) (shr_xor 10), by decide, by decide, by decide,
    by decide⟩
  rw [ssigma1, BitVec.getLsbD_xor, BitVec.getLsbD_xor, rotr_getLsbD (by decide) hk, rotr_getLsbD (by decide) hk,
    shr_getLsbD_eq_decide]

/-- Settles O6: three rotations, each known bit by bit and linear. -/
theorem lsigma0BitByBit : Obligations.Lsigma0BitByBit := by
  refine ⟨fun x => fnRow_of_exec rfl rfl fun _ => rfl, fun _ => rfl, fun x k hk => ?_,
    xor_three_linear (rotr_xor (by decide)) (rotr_xor (by decide)) (rotr_xor (by decide)), by decide, by decide,
    by decide, by decide⟩
  rw [lsigma0, BitVec.getLsbD_xor, BitVec.getLsbD_xor, rotr_getLsbD (by decide) hk, rotr_getLsbD (by decide) hk,
    rotr_getLsbD (by decide) hk]

/-- Settles O7: three rotations, each known bit by bit and linear. -/
theorem lsigma1BitByBit : Obligations.Lsigma1BitByBit := by
  refine ⟨fun x => fnRow_of_exec rfl rfl fun _ => rfl, fun _ => rfl, fun x k hk => ?_,
    xor_three_linear (rotr_xor (by decide)) (rotr_xor (by decide)) (rotr_xor (by decide)), by decide, by decide,
    by decide, by decide⟩
  rw [lsigma1, BitVec.getLsbD_xor, BitVec.getLsbD_xor, rotr_getLsbD (by decide) hk, rotr_getLsbD (by decide) hk,
    rotr_getLsbD (by decide) hk]

/-! ## Ch and Maj -/

theorem ch_getLsbD (hk : k < 32) (x y z : Word) :
    (ch x y z).getLsbD k = if x.getLsbD k then y.getLsbD k else z.getLsbD k := by
  simp only [ch, BitVec.getLsbD_xor, BitVec.getLsbD_and, BitVec.getLsbD_not, hk, decide_true, Bool.true_and]
  cases x.getLsbD k <;> simp

theorem maj_getLsbD (x y z : Word) (k : Nat) : (maj x y z).getLsbD k =
    decide (2 ≤ (x.getLsbD k).toNat + (y.getLsbD k).toNat + (z.getLsbD k).toNat) := by
  simp only [maj, BitVec.getLsbD_xor, BitVec.getLsbD_and]
  cases x.getLsbD k <;> cases y.getLsbD k <;> cases z.getLsbD k <;> rfl

/-- The two terms of Ch have no 1 in one place. -/
theorem ch_terms_and (x y z : Word) : (x &&& y) &&& (~~~x &&& z) = 0 := by
  refine BitVec.eq_of_getLsbD_eq fun k hk => ?_
  simp only [BitVec.getLsbD_and, BitVec.getLsbD_not, hk]
  cases x.getLsbD k <;> simp

theorem ch_eq_or (x y z : Word) : ch x y z = (x &&& y) ||| (~~~x &&& z) := by
  refine BitVec.eq_of_getLsbD_eq fun k hk => ?_
  rw [ch_getLsbD hk]
  simp only [BitVec.getLsbD_or, BitVec.getLsbD_and, BitVec.getLsbD_not, hk]
  cases x.getLsbD k <;> simp

theorem ch_eq_xor_and_xor (x y z : Word) : ch x y z = z ^^^ (x &&& (y ^^^ z)) := by
  refine BitVec.eq_of_getLsbD_eq fun k hk => ?_
  rw [ch_getLsbD hk]
  simp only [BitVec.getLsbD_xor, BitVec.getLsbD_and]
  cases x.getLsbD k <;> cases y.getLsbD k <;> simp

theorem allOnes_getLsbD (hk : k < 32) : (0xffffffff : Word).getLsbD k = true := by
  revert k
  decide

/-- Settles O8: Ch takes one of two bits at each position, and its two terms never meet, so they add up without a
carry. -/
theorem chSelectsBits : Obligations.ChSelectsBits := by
  refine ⟨fun x y z => ⟨fnRow_of_exec rfl rfl fun _ => rfl, rfl, fun k hk => ch_getLsbD hk x y z, ch_eq_or x y z, ?_,
    ch_eq_xor_and_xor x y z, ?_, ?_, ?_⟩, by decide, by decide⟩
  · rw [BitVec.add_eq_or_of_and_eq_zero _ _ (ch_terms_and x y z), ch_eq_or]
  · refine BitVec.eq_of_getLsbD_eq fun k hk => ?_
    simp [ch_getLsbD hk]
  · refine BitVec.eq_of_getLsbD_eq fun k hk => ?_
    rw [ch_getLsbD hk, allOnes_getLsbD hk, if_pos rfl]
  · refine BitVec.eq_of_getLsbD_eq fun k hk => ?_
    rw [ch_getLsbD hk, ite_self]

/-- Settles O9: a majority of three does not depend on their order, is the bit two of them share, and with a 0 or a 1
given it is AND or OR of the others. -/
theorem majIsMajorityVote : Obligations.MajIsMajorityVote := by
  refine ⟨fun x y z => ⟨fnRow_of_exec rfl rfl fun _ => rfl, rfl, fun k _ => maj_getLsbD x y z k, ?_, ?_, ?_, ?_, ?_⟩,
    by decide, by decide⟩
  · refine BitVec.eq_of_getLsbD_eq fun k _ => ?_
    rw [maj_getLsbD, maj_getLsbD, Nat.add_comm (x.getLsbD k).toNat]
  · refine BitVec.eq_of_getLsbD_eq fun k _ => ?_
    rw [maj_getLsbD, maj_getLsbD, Nat.add_right_comm]
  · refine BitVec.eq_of_getLsbD_eq fun k _ => ?_
    rw [maj_getLsbD]
    cases x.getLsbD k <;> cases z.getLsbD k <;> rfl
  · simp [maj]
  · refine BitVec.eq_of_getLsbD_eq fun k hk => ?_
    rw [maj_getLsbD, allOnes_getLsbD hk, BitVec.getLsbD_or]
    cases y.getLsbD k <;> cases z.getLsbD k <;> rfl

end Sys2Proof.Machine
end

section
/-! SUPPORT. Reads and writes of a buffer as numbers and byte by byte: O11 and O12. -/

namespace Sys2Proof.Machine

variable {buf : List Byte} {k n : Nat}

/-- The number some bytes make is their sum, each with the weight of its place (00_scope.md section 4.2). -/
theorem fromBe_eq_sum (s : List Byte) :
    fromBe s = ((List.range s.length).map fun q => (s.getD q 0).toNat * 256 ^ (s.length - 1 - q)).sum := by
  induction s with
  | nil => rfl
  | cons b s ih =>
    rw [fromBe_cons, ih, List.length_cons, List.range_succ_eq_map, List.map_cons, List.sum_cons, List.map_map]
    congr 2
    refine List.map_congr_left fun q _ => ?_
    have hplace : s.length - (q + 1) = s.length - 1 - q := by omega
    simp [hplace]

/-- Settles O11: the bytes read are the `n` from offset `k`, and `n` bytes make a number below `256^n`. -/
theorem memReadIsBigEndianSum : Obligations.MemReadIsBigEndianSum := by
  intro buf k n hlen
  constructor
  · have hn : ((buf.drop k).take n).length = n := by simp; omega
    rw [memRead, fromBe_eq_sum, hn]
    congr 1
    refine List.map_congr_left fun q hq => ?_
    have hq : q < n := List.mem_range.mp hq
    simp [List.getD_eq_getElem?_getD, hq]
  · rw [pow_mul]
    exact memRead_lt buf k n

theorem memRead_one {b : Byte} (hb : buf[k]? = some b) : memRead buf k 1 = b.toNat := by
  simp [memRead, List.take_add_one, hb]

/-- A write leaves the bytes before it and after it, and puts its own between them. -/
theorem memWrite_getElem? (hlen : k + n ≤ buf.length) (v a : Nat) : (memWrite buf k n v)[a]? =
    if a < k ∨ k + n ≤ a then buf[a]? else (beBytes n v)[a - k]? := by
  have hk : (buf.take k).length = k := by simp; omega
  have hkn : (buf.take k ++ beBytes n v).length = k + n := by simp; omega
  rw [memWrite]
  rcases Nat.lt_or_ge a k with hbefore | hbefore
  · rw [if_pos (.inl hbefore), List.getElem?_append_left (by omega), List.getElem?_append_left (by omega),
      List.getElem?_take_of_lt hbefore]
  rcases Nat.lt_or_ge a (k + n) with hin | hafter
  · rw [if_neg (by omega), List.getElem?_append_left (by omega), List.getElem?_append_right (by omega), hk]
  · rw [if_pos (.inr hafter), List.getElem?_append_right (by omega), hkn, List.getElem?_drop]
    congr 1
    omega

theorem drop_take_memWrite (hlen : k + n ≤ buf.length) (v : Nat) :
    ((memWrite buf k n v).drop k).take n = beBytes n v := by
  rw [memWrite, List.append_assoc, List.drop_left' (by simp; omega), List.take_left' (beBytes_length n v)]

/-- Settles O12: what stands at an offset after a write says every clause, and a read takes the bytes written. -/
theorem memWriteSetsExactlyItsBytes : Obligations.MemWriteSetsExactlyItsBytes := by
  intro buf k n v hlen hv
  have hbyte (q : Nat) (hq : q < n) :
      (memWrite buf k n v)[k + q]? = some (BitVec.ofNat 8 (v / 256 ^ (n - 1 - q) % 256)) := by
    rw [memWrite_getElem? hlen, if_neg (by omega), Nat.add_sub_cancel_left, beBytes_getElem? v hq]
  refine ⟨memWrite_length hlen, hbyte, fun a ha => ?_, ?_, fun q hq => ?_⟩
  · rw [memWrite_getElem? hlen, if_pos ha]
  · rw [memRead, drop_take_memWrite hlen, fromBe_beBytes, Nat.mod_eq_of_lt hv]
  · rw [memRead_one (hbyte q hq), BitVec.toNat_ofNat]
    exact Nat.mod_mod _ _

end Sys2Proof.Machine
end

section
/-! SUPPORT. The operation map in both directions, and the table K: O16 to O19. -/

namespace Sys2Proof.Machine

/-- A command that decodes has the identifier of what it decodes to: the identifiers of the map are all different. -/
theorem encode_opid_of_decode {c : Command} {i : Instr} (h : decode c = .ok i) : (encode i).opid = c.opid := by
  unfold decode at h
  split at h <;> rename_i hopid <;> cases h <;> exact BitVec.eq_of_toNat_eq hopid.symm

theorem decode_encode (i : Instr) : decode (encode i) = .ok i := by cases i <;> rfl

theorem encode_opid_mem (i : Instr) : (encode i).opid ∈ tableOpids := by
  cases i <;> simp [encode, opidCommand, tableOpids]

theorem decode_eq_error {c : Command} {e : DecodeError} (h : decode c = .error e) : e = .unknownOpid c.opid := by
  unfold decode at h
  split at h <;> cases h
  rfl

/-- Every identifier of the map decodes, whatever stands on the operand inputs. -/
theorem exists_decode_of_mem {c : Command} (hc : c.opid ∈ tableOpids) : ∃ i, decode c = .ok i := by
  obtain ⟨opid, amount, x, y, z, bytes⟩ := c
  revert opid
  simp [tableOpids, decode]

theorem exists_decode_iff (c : Command) : (∃ i, decode c = .ok i) ↔ c.opid ∈ tableOpids :=
  ⟨fun ⟨i, hi⟩ => encode_opid_of_decode hi ▸ encode_opid_mem i, exists_decode_of_mem⟩

/-- Settles O16: the map read in one direction and back. -/
theorem decodeEncodeAgree : Obligations.DecodeEncodeAgree :=
  ⟨fun i => ⟨decode_encode i, encode_opid_mem i⟩, fun _ _ => encode_opid_of_decode, exists_decode_iff⟩

/-- Settles O17: what is not in the map does not decode, and the decoder has one error. -/
theorem unknownIdentifierRefused : Obligations.UnknownIdentifierRefused := by
  intro s c rest hc hport
  have herror : decode c = .error (.unknownOpid c.opid) := by
    cases hd : decode c with
    | ok i => exact absurd ((exists_decode_iff c).mp ⟨i, hd⟩) hc
    | error e => rw [decode_eq_error hd]
  refine ⟨herror, ?_⟩
  simp only [step, State.takeCommand, hport, herror, refusalOf]

/-- Settles O18. -/
theorem tableWordsDecode : Obligations.TableWordsDecode := ⟨rfl, rfl, rfl, rfl, rfl, rfl, rfl, rfl, rfl, rfl⟩

theorem firstPrimes_eq : firstPrimes =
    [2, 3, 5, 7, 11, 13, 17, 19, 23, 29, 31, 37, 41, 43, 47, 53, 59, 61, 67, 71, 73, 79, 83, 89, 97, 101, 103, 107,
      109, 113, 127, 131, 137, 139, 149, 151, 157, 163, 167, 173, 179, 181, 191, 193, 197, 199, 211, 223, 227, 229,
      233, 239, 241, 251, 257, 263, 269, 271, 277, 281, 283, 293, 307, 311] := by
  decide +kernel

/-- The integer part of the cube root of a prime of the table is below 7, and K holds its next 32 bits. -/
theorem exists_root_of_prime : ∀ t : Fin 64, ∃ q < 7,
    (q * 2 ^ 32 + K[t].toNat) ^ 3 ≤ firstPrimes.getD t.val 0 * 2 ^ 96 ∧
      firstPrimes.getD t.val 0 * 2 ^ 96 < (q * 2 ^ 32 + K[t].toNat + 1) ^ 3 := by
  rw [firstPrimes_eq]
  decide +kernel

/-- Settles O19: the root is an integer part below 7 and the word of K behind it. -/
theorem roundConstantsAreCubeRoots : Obligations.RoundConstantsAreCubeRoots := by
  refine ⟨by rw [firstPrimes_eq]; rfl, fun t => ?_⟩
  obtain ⟨q, -, hle, hlt⟩ := exists_root_of_prime t
  have hword : K[t].toNat < 2 ^ 32 := K[t].isLt
  exact ⟨q * 2 ^ 32 + K[t].toNat, hle, hlt, by omega⟩

end Sys2Proof.Machine
end

section
/-! SUPPORT. The padding and PAD, and what PARSE does after it: O20 to O24, O26, O28, O29 and O31. -/

namespace Sys2Proof.Machine

variable {s : State} {cfg : Config} {m : List Byte}

/-! ## The layout of the padding -/

theorem appendPadding_length_eq_blocks (m : List Byte) : (appendPadding m).length = 64 * ((m.length + 8) / 64 + 1) := by
  rw [appendPadding_length, zeroFill]
  omega

theorem take_appendPadding (m : List Byte) : (appendPadding m).take m.length = m := by
  simp only [appendPadding, List.append_assoc, List.take_left]

theorem appendPadding_terminator (m : List Byte) : (appendPadding m)[m.length]? = some 0x80 := by
  simp [appendPadding]

theorem appendPadding_zero {q : Nat} (m : List Byte) (hq : q < zeroFill m.length) :
    (appendPadding m)[m.length + 1 + q]? = some 0x00 := by
  rw [appendPadding, List.getElem?_append_left (by simp; omega), List.getElem?_append_right (by simp)]
  simp [hq]

/-- Settles O20: each part of the padding lies where the lengths of the parts before it put it. -/
theorem paddedBufferLayout : Obligations.PaddedBufferLayout := by
  intro m _
  have hlast : m.length + 1 + zeroFill m.length = (appendPadding m).length - 8 := by simp
  refine ⟨?_, ?_, ?_, appendPadding_length_eq_blocks m, take_appendPadding m, appendPadding_terminator m,
    fun q hq => appendPadding_zero m hq, ?_⟩
  · rw [zeroFill]; omega
  · have hlt := zeroFill_lt m.length
    omega
  · rw [appendPadding_length]; omega
  · rw [hlast, drop_appendPadding]

theorem blocksOf_appendPadding_length (m : List Byte) :
    (blocksOf (appendPadding m)).length = (m.length + 8) / 64 + 1 := by
  rw [blocksOf_length, appendPadding_length_eq_blocks]
  omega

/-- Settles O21: the fill and the number of blocks are said by the length modulo 64 and its quotient. -/
theorem zeroFillIsLeastAndBlockBoundary : Obligations.ZeroFillIsLeastAndBlockBoundary := by
  refine ⟨fun len => ?_, fun m hm => ?_, fun m hm => ?_, fun m m' hm => ?_⟩
  · unfold zeroFill
    exact ⟨by omega, fun k hk => by omega, by omega, by omega⟩
  · rw [blocksOf_appendPadding_length, hm]
  · rw [blocksOf_appendPadding_length, hm]
  · rw [blocksOf_appendPadding_length, blocksOf_appendPadding_length, hm]
    split <;> omega

/-! ## Which messages are padded -/

theorem padded_of_skip (hskip : cfg.alignedSkip = true) (hm : m.length % 64 = 0) : padded cfg m = m :=
  if_pos ⟨hskip, by omega⟩

theorem padded_of_not_aligned (hm : m.length % 64 ≠ 0) : padded cfg m = appendPadding m :=
  if_neg fun h => hm (by omega)

theorem padded_of_no_skip (hskip : cfg.alignedSkip = false) : padded cfg m = appendPadding m :=
  if_neg fun h => by simp [hskip] at h

theorem padded_eq_or (cfg : Config) (m : List Byte) : padded cfg m = m ∨ padded cfg m = appendPadding m :=
  ite_eq_or_eq _ _ _

/-- Settles O22: a message that gets no padding is whole blocks itself, and padding ends with the length field. -/
theorem paddedLengthIsWholeBlocks : Obligations.PaddedLengthIsWholeBlocks := by
  intro cfg m hm
  have hwhole := padded_length_mod cfg m
  refine ⟨by omega, take_length_padded cfg m, fun hne => ?_⟩
  obtain hsame | hpad := padded_eq_or cfg m
  · exact absurd hsame hne
  · rw [hpad]
    exact (lengthFieldIsOriginalBitLength.1 m hm).1

theorem pad_eq_ok (cfg : Config) (hm : 8 * m.length < 2 ^ 64) : pad cfg m (8 * m.length) = .ok (padded cfg m) := by
  rw [pad, if_neg (not_not_intro ⟨Nat.mul_mod_right 8 _, rfl⟩), if_neg (not_not_intro hm)]

/-- Settles O23: the condition on the length and the parameter says which buffer, and `pad` tests its domain first. -/
theorem padFunctionChoosesPadding : Obligations.PadFunctionChoosesPadding := by
  refine ⟨fun _ _ => padded_of_skip, fun _ _ _ => padded_of_not_aligned, fun _ _ => padded_of_no_skip, rfl,
    fun cfg _ => pad_eq_ok cfg, fun cfg m n hn => ?_⟩
  have hbad : ¬ BitLengthOk m n := fun ⟨hmod, hlen⟩ => hn.elim (· hmod) (· hlen)
  rw [pad, if_pos hbad]

/-! ## PAD -/

/-- PAD with the buffers in form: BITLEN fits its 64 bits, so the function `pad` answers (41_padder.md R106). -/
theorem padOp_eq (cfg : Config) (hs : s.stage = .msg) (hwf : Memory.wf s) :
    padOp cfg s = .next ((s.storePb (padded cfg s.msg)).setStage .padded) := by
  obtain ⟨hmlen, hbits, -⟩ := hwf
  have hfit : 8 * s.msg.length < 2 ^ 64 := by
    rw [← hmlen, ← hbits]
    exact s.bitlen.isLt
  simp [padOp, hs, hmlen, hbits, pad_eq_ok cfg hfit]

theorem execPad_refused (hs : s.stage ≠ .msg) : exec .pad s = .refused (.notAdmitted "PAD") := if_neg hs

/-- Settles O24. -/
theorem padWritesPaddedBuffer : Obligations.PadWritesPaddedBuffer := by
  refine ⟨fun cfg s hs hwf => padOp_eq cfg hs hwf, fun s hs hwf => ?_, fun s => execPad_refused⟩
  have hchip : padded Config.chip s.msg = appendPadding s.msg := padded_of_no_skip rfl
  exact hchip ▸ padOp_eq Config.chip hs hwf

/-! ## PARSE -/

/-- A block is made of its own 64 bytes, so it is the first block of those (42_parser.md R122). -/
theorem blockAt_eq_blockAt_chunk (p : List Byte) (i : Nat) : blockAt p i = blockAt ((p.drop (64 * i)).take 64) 0 := by
  ext1 j hj
  have hbytes : (((p.drop (64 * i)).take 64).drop (4 * j)).take 4 = (p.drop (64 * i + 4 * j)).take 4 := by
    rw [List.drop_take, List.drop_drop, List.take_take, Nat.min_eq_left (by omega)]
  simp [blockAt, memRead, hbytes]

/-- Settles O26: `parse` fails or gives the blocks of the whole buffer, and each is made of its own bytes. -/
theorem parseGivesAllBlocksOrNone : Obligations.ParseGivesAllBlocksOrNone := by
  refine ⟨fun p => ?_, fun p hp => ?_, rfl⟩
  · by_cases hwhole : p.length % 64 = 0
    · refine .inr ⟨blocksOf p, parse_ok hwhole, by rw [blocksOf_length]; omega, fun i hi => ?_⟩
      rw [blocksOf_length] at hi
      have hchunk : 0 < ((p.drop (64 * i)).take 64).length / 64 := by simp; omega
      rw [blocksOf_getElem?, blocksOf_getElem?, if_pos hi, if_pos hchunk, blockAt_eq_blockAt_chunk]
    · have herror : parse p = .error (.invalidInputLength p.length) := parse_eq_error_iff.mpr ⟨hwhole, rfl⟩
      exact .inl ⟨herror, fun bs hbs => nomatch herror.symm.trans hbs⟩
  · exact parse_eq_error_iff.mpr ⟨by rw [hp]; decide, by rw [hp]⟩

theorem execParse_eq_of_whole (hs : s.stage = .padded) (hwf : Memory.wf s) (hwhole : s.plen % 64 = 0) :
    exec .parse s = .next ((s.storeBlk (blocksOf s.pb)).setStage .parsed) := by
  obtain ⟨-, -, hplen, -⟩ := hwf
  have hparse : parse s.pb = .ok (blocksOf s.pb) := parse_ok (hplen ▸ hwhole)
  simp [exec, execParse, hs, hplen, hparse]

theorem execParse_eq_of_off (hs : s.stage = .padded) (hwf : Memory.wf s) (hoff : s.plen % 64 ≠ 0) :
    exec .parse s = .next s.raiseInvalidInputLength := by
  obtain ⟨-, -, hplen, -⟩ := hwf
  have hparse : parse s.pb = .error (.invalidInputLength s.pb.length) := parse_eq_error_iff.mpr ⟨hplen ▸ hoff, rfl⟩
  simp [exec, execParse, hs, hplen, hparse]

/-- Settles O28. -/
theorem parseWritesBlocks : Obligations.ParseWritesBlocks := by
  refine ⟨fun s hs hwf hwhole => ?_, fun s hs => if_neg hs⟩
  have hnblk : s.plen / 64 = (blocksOf s.pb).length := by
    obtain ⟨-, -, hplen, -⟩ := hwf
    rw [blocksOf_length, hplen]
  rw [hnblk]
  exact execParse_eq_of_whole hs hwf hwhole

/-- Settles O29. -/
theorem parseTakesInvalidInputLength : Obligations.ParseTakesInvalidInputLength := fun _ => execParse_eq_of_off

/-- Settles O31: what PAD leaves is whole blocks, and its buffers are in form. -/
theorem parseAfterPadSucceeds : Obligations.ParseAfterPadSucceeds := by
  intro cfg s hs hwf
  have hparse := execParse_eq_of_whole (s := (s.storePb (padded cfg s.msg)).setStage .padded) rfl
    (wf_setStage _ (wf_storePb _ hwf)) (padded_length_mod cfg s.msg)
  exact ⟨_, _, padOp_eq cfg hs hwf, rfl, hparse, rfl, rfl, rfl⟩

end Sys2Proof.Machine
end

section
/-! SUPPORT. The operations of the Compressor one by one, what they write and where they are refused: O32 to O37
and O39. -/

namespace Sys2Proof.Machine

variable {s t : State} {cfg : Config} {i : Nat} {b : Block} {h r : Words8}

/-! ## Where an operation is refused -/

theorem execInit_refused (hs : s.stage ≠ .parsed ∨ s.phase ≠ .uninitialized) :
    exec .init s = .refused (.notAdmitted "INIT") :=
  if_neg fun hadm => hs.elim (· hadm.1) (· hadm.2)

theorem execSched_refused (hadm : admitted cfg .sched s = false) : exec .sched s = .refused (.notAdmitted "SCHED") := by
  simp only [exec, execSched]
  split
  next hs =>
    simp only [admitted, hs, atBlockStart] at hadm
    split <;> simp_all
  next => rfl

theorem execLoad_refused (hadm : admitted cfg .load s = false) : exec .load s = .refused (.notAdmitted "LOAD") := by
  simp only [exec, execLoad]
  split
  next hs =>
    simp only [admitted, hs, atMicroStep] at hadm
    split <;> simp_all
  next => rfl

theorem execRound_refused (hadm : admitted cfg .round s = false) : exec .round s = .refused (.notAdmitted "ROUND") := by
  simp only [exec, execRound]
  split
  next hs =>
    simp only [admitted, hs, atMicroStep] at hadm
    split <;> simp_all
  next => rfl

theorem execFold_refused (hadm : admitted cfg .fold s = false) : exec .fold s = .refused (.notAdmitted "FOLD") := by
  simp only [exec, execFold]
  split
  next hs =>
    simp only [admitted, hs, atMicroStep] at hadm
    split <;> simp_all
  next => rfl

theorem execCompress_refused (hadm : admitted cfg .compress s = false) :
    exec .compress s = .refused (.notAdmitted "COMPRESS") := by
  simp only [exec, execCompress]
  split
  next hs =>
    simp only [admitted, hs, atBlockStart] at hadm
    split <;> simp_all
  next => rfl

theorem execFinal_refused (hs : s.stage ≠ .parsed ∨ s.phase ≠ .initialized ∨ s.nblk ≠ 0) :
    exec .final s = .refused (.notAdmitted "FINAL") :=
  if_neg fun ⟨hstage, hphase, hzero⟩ => hs.elim (· hstage) fun h => h.elim (· hphase) (· hzero)

/-! ## INIT and FINAL -/

theorem cellsOf_H0 : cellsOf H0 =
    #v[some 0x6a09e667, some 0xbb67ae85, some 0x3c6ef372, some 0xa54ff53a, some 0x510e527f, some 0x9b05688c,
      some 0x1f83d9ab, some 0x5be0cd19] := by
  simp [cellsOf, H0]

/-- Settles O32. -/
theorem initWritesH0 : Obligations.InitWritesH0 := by
  refine ⟨fun s hs hp => ?_, fun s => execInit_refused⟩
  rw [← cellsOf_H0]
  exact execInit_eq hs hp

theorem execFinal_eq (hs : s.stage = .parsed) (hp : s.phase = .initialized) (hzero : s.nblk = 0) :
    exec .final s = .next (s.setPhase .finalized) :=
  if_pos ⟨hs, hp, hzero⟩

/-- Settles O39. -/
theorem finalWithNoBlock : Obligations.FinalWithNoBlock :=
  ⟨fun _ hs hp hzero => execFinal_eq hs hp hzero, fun _ => execFinal_refused⟩

/-! ## SCHED -/

theorem schedule_getElem_of_lt {k : Nat} (b : Block) (hk : k < 16) : (schedule b)[k] = b[k] :=
  schedule_getElem b 0 k (by decide) (by omega)

/-- The recurrence of the schedule, each entry from those before it (43_compressor.md R137). -/
theorem schedule_getElem_add (b : Block) (n : Nat) (hn : n < 48) : (schedule b)[16 + n] =
    ssigma1 (schedule b)[14 + n] + (schedule b)[9 + n] + ssigma0 (schedule b)[1 + n] + (schedule b)[n] := by
  rw [schedule_getElem b (n + 1) (16 + n) (by omega) (by omega), scheduleUpTo_newest, scheduleNext]
  simp only [schedule_getElem b n _ (Nat.le_of_lt hn) (by omega : 14 + n < 16 + n),
    schedule_getElem b n _ (Nat.le_of_lt hn) (by omega : 9 + n < 16 + n),
    schedule_getElem b n _ (Nat.le_of_lt hn) (by omega : 1 + n < 16 + n),
    schedule_getElem b n _ (Nat.le_of_lt hn) (by omega : n < 16 + n)]

/-- SCHED needs the block alone: it reads H not at all. -/
theorem execSched_eq (hs : s.stage = .parsed)
    (hstart : s.phase = .initialized ∧ i = 0 ∨ s.phase = .processing i ∧ s.us = .sched) (hb : s.readBlk i = some b) :
    exec .sched s = .next (((s.writeW (schedule b)).setPhase (.processing i)).setUs .load) := by
  obtain ⟨hp, rfl⟩ | ⟨hp, hu⟩ := hstart
  · have hn : 1 ≤ s.nblk := (State.readBlk_eq_some.mp hb).1
    simp [exec, execSched, hs, hp, hn, schedBlock, hb]
  · simp [exec, execSched, hs, hp, hu, schedBlock, hb]

/-- Settles O33: the recurrence holds in the part of the schedule built so far, and later entries leave it. -/
theorem schedBuildsSchedule : Obligations.SchedBuildsSchedule := by
  refine ⟨fun i hi => hi ▸ ⟨rfl, rfl⟩, fun b t ht => schedule_getElem_of_lt b ht, fun b t h16 ht => ?_,
    fun s b hs hp hb => execSched_eq hs (.inl ⟨hp, rfl⟩) hb, fun s i b hs hp hu hb => ?_, fun s => execSched_refused,
    by decide +kernel, by decide +kernel, by decide +kernel, by decide +kernel, by decide +kernel,
    by decide +kernel⟩
  · obtain ⟨n, rfl⟩ := Nat.exists_eq_add_of_le h16
    have h2 : 16 + n - 2 = 14 + n := by omega
    have h7 : 16 + n - 7 = 9 + n := by omega
    have h15 : 16 + n - 15 = 1 + n := by omega
    simpa only [h2, h7, h15, Nat.add_sub_cancel_left] using schedule_getElem_add b n (by omega)
  · rw [execSched_eq hs (.inr ⟨hp, hu⟩) hb, ← hp]
    rfl

/-! ## LOAD -/

/-- In a state a run can be in, LOAD finds the chaining value of the blocks before in H. -/
theorem execLoad_registers (hinv : HashInv cfg s) (hp : s.phase = .processing i) (hload : exec .load s = .next t) :
    t.R = cellsOf (chain s.blk i) := by
  obtain ⟨-, -, -, hchain⟩ := hinv
  simp only [chainInv, hp] at hchain
  obtain ⟨-, _, w, -, -, hw, rfl⟩ := execLoad_next hload
  exact hw.symm.trans hchain.1

/-- Settles O34. -/
theorem loadCopiesHashState : Obligations.LoadCopiesHashState :=
  ⟨rfl, rfl, fun _ _ _ hs hp hu hH => execLoad_eq hs hp hu hH,
    fun s _ _ hinv hp hload => ⟨execLoad_registers hinv hp hload, chain_zero s.blk⟩, fun _ => execLoad_refused, rfl⟩

/-! ## ROUND -/

/-- ROUND needs the word of its own index, whatever the rest of W holds. -/
theorem execRound_eq_of_word {k : Fin 64} {w : Word} (hs : s.stage = .parsed) (hp : s.phase = .processing i)
    (hu : s.us = .round k) (hR : s.R = cellsOf r) (hw : s.W[k] = some w) :
    exec .round s = .next ((s.writeR (round K[k] w r)).setUs (afterRound k)) := by
  have hw' : s.W[k.val] = some w := hw
  simp [exec, execRound, hs, hp, hu, hR, hw']

theorem afterRound_eq_dite (k : Fin 64) :
    afterRound k = if hk : k.val < 63 then .round ⟨k.val + 1, by omega⟩ else .fold := by
  by_cases hk : k.val < 63
  · rw [afterRound_lt (by omega), dif_pos hk]
  · obtain rfl : k = 63 := by omega
    rfl

/-- Settles O35. -/
theorem roundUpdatesWorkingRegisters : Obligations.RoundUpdatesWorkingRegisters := by
  refine ⟨rfl, rfl, fun s i k a b c d e f g h w T1 T2 hs hp hu hR hw hT1 hT2 => ?_, fun s => execRound_refused,
    by decide +kernel, by decide +kernel, by decide +kernel⟩
  subst hT1 hT2
  rw [execRound_eq_of_word hs hp hu hR hw, afterRound_eq_dite]
  rfl

/-! ## FOLD -/

theorem foldWords_toNat (h r : Words8) (j : Fin 8) :
    (foldWords h r)[j].toNat = (h[j].toNat + r[j].toNat) % 2 ^ 32 := by
  simp [foldWords]

theorem eq_foldWords {h' : Words8} (hsum : ∀ j : Fin 8, h'[j].toNat = (h[j].toNat + r[j].toNat) % 2 ^ 32) :
    h' = foldWords h r := by
  ext1 j hj
  exact BitVec.eq_of_toNat_eq ((hsum ⟨j, hj⟩).trans (foldWords_toNat h r ⟨j, hj⟩).symm)

theorem State.afterBlock_eq (s : State) (i : Nat) (h : Words8) : s.afterBlock i h = { s with
    H := cellsOf h, W := noval 64, R := noval 8, phase := s.phaseAfter i, us := .sched } := rfl

theorem afterBlock_of_lt (hi : i + 1 < s.nblk) : s.afterBlock i h = { s with
    H := cellsOf h, W := noval 64, R := noval 8, phase := .processing (i + 1), us := .sched } := by
  rw [State.afterBlock_eq, State.phaseAfter, if_pos hi]

theorem afterBlock_of_last (hi : i + 1 = s.nblk) : s.afterBlock i h = { s with
    H := cellsOf h, W := noval 64, R := noval 8, phase := .finalized, us := .sched } := by
  rw [State.afterBlock_eq, State.phaseAfter, if_neg (by omega)]

/-- Settles O36: FOLD leaves the state after the block, whose PHASE says whether a block is left. -/
theorem foldAccumulates : Obligations.FoldAccumulates := by
  refine ⟨fun s i h r h' hs hp hu hH hR hsum => ?_, fun s => execFold_refused⟩
  obtain rfl : h' = foldWords h r := eq_foldWords hsum
  have hfold (hi : i < s.nblk) : exec .fold s = .next (s.afterBlock i (foldWords h r)) :=
    execFold_eq hs hp hu hH hR hi
  exact ⟨fun hi => by rw [hfold (by omega), afterBlock_of_lt hi],
    fun hi => by rw [hfold (by omega), afterBlock_of_last hi]⟩

/-! ## COMPRESS -/

/-- Settles O37. -/
theorem compressIsBlockTransition : Obligations.CompressIsBlockTransition := by
  refine ⟨fun s i h b hs hstart hH hb => ?_, fun h b => foldWords_toNat h _, fun s => execCompress_refused⟩
  obtain ⟨hi, hblk⟩ := State.readBlk_eq_some.mp hb
  exact (BeforeBlock.mk hs hstart hH hi hblk).execCompress_eq

end Sys2Proof.Machine
end

section
/-! SUPPORT. The top level: what reset, CLEAR, LOADMSG and LOADPB leave, the DIGEST port, one step, and where HASH ends:
O42 to O46, O49, O55, O56 and O60. -/

namespace Sys2Proof.Machine

variable {s t : State} {cfg : Config} {i : Nat} {b : Block} {h : Words8} {m : List Byte}

/-! ## LOADMSG, LOADPB and CLEAR -/

theorem loadMsgOp_eq (hs : s.stage = .empty) (hm : MessageOk cfg m) :
    loadMsgOp cfg m s = .next ((s.storeMsg m).setStage .msg) := by
  rw [loadMsgOp, if_pos hs, if_pos hm]

theorem loadMsgOp_refused (hs : s.stage ≠ .empty) : loadMsgOp cfg m s = .refused (.notAdmitted "LOADMSG") := if_neg hs

theorem messageOk_chip (hm : 8 * m.length < 2 ^ 64) : MessageOk Config.chip m :=
  ⟨by simp only [Config.chip]; omega, hm⟩

theorem not_messageOk (hm : cfg.msgMaxBytes < m.length ∨ 2 ^ 64 ≤ 8 * m.length) : ¬ MessageOk cfg m :=
  fun ⟨hcap, hbits⟩ => hm.elim (Nat.not_lt.mpr hcap) (Nat.not_le.mpr hbits)

/-- Settles O42. -/
theorem loadmsgTakesWholeMessage : Obligations.LoadmsgTakesWholeMessage := by
  refine ⟨fun cfg s m hs hcap hbits => loadMsgOp_eq hs ⟨hcap, hbits⟩, fun s m hs hbits => ?_,
    fun cfg s m => loadMsgOp_refused, fun cfg s m hs hm => ?_, fun s m => loadMsgOp_refused⟩
  · exact ⟨_, loadMsgOp_eq hs (messageOk_chip hbits), Nat.mod_eq_of_lt hbits, rfl⟩
  · rw [loadMsgOp, if_pos hs, if_neg (not_messageOk hm)]

theorem execLoadpb_eq {p : List Byte} (hs : s.stage = .empty) :
    exec (.loadpb p) s = .next ((s.storePb p).setStage .padded) := if_pos hs

theorem execLoadpb_refused {p : List Byte} (hs : s.stage ≠ .empty) :
    exec (.loadpb p) s = .refused (.notAdmitted "LOADPB") := if_neg hs

/-- Settles O43. -/
theorem loadpbTakesAnyLength : Obligations.LoadpbTakesAnyLength :=
  ⟨fun _ _ => execLoadpb_eq, fun _ _ => execLoadpb_refused⟩

/-- Settles O44. -/
theorem clearIsReset : Obligations.ClearIsReset := fun _ => rfl

/-! ## The state after reset -/

/-- Settles O45: the reset state is in S_EMPTY and Uninitialized, where the table of R177 has four rows. -/
theorem resetState : Obligations.ResetState := by
  refine ⟨rfl, rfl, rfl, rfl, rfl, rfl, rfl, rfl, rfl, rfl, rfl, rfl, rfl, rfl, rfl, fun i hformat hadm => ?_⟩
  cases i with
  | add32 | rotr | shr | ssigma0 | ssigma1 | lsigma0 | lsigma1 | ch | maj => exact absurd rfl hformat
  | pad | parse | init | sched | load | round | fold | final | compress => nomatch hadm
  | clear => exact .inl rfl
  | loadpb p => exact .inr (.inl ⟨p, rfl⟩)
  | loadmsg m => exact .inr (.inr (.inl ⟨m, rfl⟩))
  | hash m => exact .inr (.inr (.inr ⟨m, rfl⟩))

/-- Settles O56: reset is what CLEAR leaves of it. -/
theorem resetMeetsInvariants : Obligations.ResetMeetsInvariants :=
  ⟨stateInv_keptByOps.clear State.reset, hashInv_keptByOps.clear State.reset⟩

/-! ## One step -/

theorem step_eq_exec {c : Command} {rest : List Command} {i : Instr} (hport : s.port = c :: rest)
    (hdecode : decode c = .ok i) : step s = exec i { s with port := rest } := by
  simp only [step, State.takeCommand, hport, hdecode]

/-- Settles O55. -/
theorem stepPerformsNextOperation : Obligations.StepPerformsNextOperation :=
  ⟨fun _ _ _ _ => step_eq_exec, fun s hport => by simp only [step, State.takeCommand, hport, idle]⟩

/-! ## The DIGEST port -/

theorem words8_toList (h : Words8) : h.toList = [h[0], h[1], h[2], h[3], h[4], h[5], h[6], h[7]] := by
  rw [← Vector.ofFn_getElem (xs := h), Vector.toList_ofFn]
  simp [List.ofFn_succ]

/-- Settles O49. -/
theorem digestPortOnlyInFinalized : Obligations.DigestPortOnlyInFinalized := by
  refine ⟨fun s h hp hH => ?_, fun s hp => ?_⟩
  · rw [digestPort_of_finalized hp hH, digestBytes, words8_toList]
    simp only [List.flatMap_cons, List.flatMap_nil, List.append_nil, List.append_assoc]
  · cases hphase : s.phase with
    | finalized => exact absurd hphase hp
    | uninitialized | initialized | processing => simp only [State.digestPort, hphase]

/-- Settles O60: the invariant says what H, BLK and PB hold in Finalized. -/
theorem finalizedPresentsHash : Obligations.FinalizedPresentsHash := by
  intro s hinv hp hmsg
  obtain ⟨⟨-, -, hphase, -⟩, hblk, hpb, hchain⟩ := hinv
  simp only [phaseInv, hp] at hphase
  simp only [chainInv, hp] at hchain
  have hstage : s.stage = .parsed := hphase.1
  have hblocks : s.blk = blocksOf (padded Config.chip s.msg) := by
    rw [hblk hstage, hpb hmsg (.inr (.inl hstage))]
  rw [digestPort_of_finalized hp hchain, chain, List.take_length, hblocks, hashOf]

/-! ## HASH -/

/-- What a block leaves is lost after the next one. -/
@[simp] theorem State.afterBlock_afterBlock (s : State) (i j : Nat) (h h' : Words8) :
    (s.afterBlock i h).afterBlock j h' = s.afterBlock j h' := by
  simp only [State.afterBlock_eq, State.phaseAfter]

/-- From before block `i`, `k + 1` COMPRESS leave the state after block `i + k`, with the fold over the blocks from `i`
on in H (43_compressor.md R143). -/
theorem BeforeBlock.repeatOp_execCompress_eq {k : Nat} (hs : BeforeBlock s i h b) (hwf : s.nblk = s.blk.length)
    (hk : i + k < s.nblk) : repeatOp execCompress (k + 1) s =
      .next (s.afterBlock (i + k) (((s.blk.drop i).take (k + 1)).foldl compress h)) := by
  induction k generalizing s i h b with
  | zero =>
    rw [repeatOp_succ, hs.execCompress_eq, andThen_next, hs.foldl_compress_succ]
    simp
  | succ k ih =>
    have hidx : i + (k + 1) = i + 1 + k := by omega
    rw [hidx] at hk ⊢
    obtain ⟨b', hb'⟩ : ∃ b', s.blk[i + 1]? = some b' := ⟨_, List.getElem?_eq_getElem (by omega)⟩
    have hnext : BeforeBlock (s.afterBlock i (compress h b)) (i + 1) (compress h b) b' := hs.afterBlock (by omega) hb'
    rw [repeatOp_succ, hs.execCompress_eq, andThen_next, hs.foldl_compress_succ]
    simpa using ih hnext (by simpa using hwf) (by simpa using hk)

/-- From Uninitialized, INIT and one COMPRESS per block leave the fold over all the blocks in H, and nothing else
changed but PHASE: W, a .. h and US are as FOLD leaves them before and after (10_state.md R28). -/
theorem repeatOp_execCompress_all (hs : s.stage = .parsed) (hwf : s.nblk = s.blk.length) (hone : s.nblk ≠ 0)
    (hW : s.W = noval 64) (hR : s.R = noval 8) (hu : s.us = .sched) :
    repeatOp execCompress s.nblk ((s.writeH H0).setPhase .initialized) =
      .next ((s.writeH (s.blk.foldl compress H0)).setPhase .finalized) := by
  obtain ⟨k, hk⟩ := Nat.exists_eq_succ_of_ne_zero hone
  have hfirst : BeforeBlock ((s.writeH H0).setPhase .initialized) 0 H0 (s.blk[0]'(by omega)) :=
    ⟨hs, .inl ⟨rfl, rfl⟩, rfl, Nat.pos_of_ne_zero hone, List.getElem?_eq_getElem _⟩
  have hall : ((s.blk.drop 0).take (k + 1)).foldl compress H0 = s.blk.foldl compress H0 := by
    rw [List.drop_zero, List.take_of_length_le (by omega)]
  have hrun := hfirst.repeatOp_execCompress_eq (k := k) hwf (by simp; omega)
  rw [hk, hrun, afterBlock_of_last (by simp; omega), ← hW, ← hR, ← hu]
  exact congrArg (fun h => Host.Outcome.next ((s.writeH h).setPhase .finalized)) hall

/-- The compressor's part of HASH puts the fold over the blocks in H, also when there is none (44_top.md R172). -/
theorem hashBlocks_eq (hs : s.stage = .parsed) (hp : s.phase = .uninitialized) (hwf : s.nblk = s.blk.length)
    (hW : s.W = noval 64) (hR : s.R = noval 8) (hu : s.us = .sched) :
    hashBlocks s = .next ((s.writeH (s.blk.foldl compress H0)).setPhase .finalized) := by
  have hinit : execInit s = .next ((s.writeH H0).setPhase .initialized) := execInit_eq hs hp
  rw [hashBlocks, if_neg (by simp [hs]), hinit, andThen_next]
  by_cases hzero : s.nblk = 0
  · have hnone : s.blk = [] := List.length_eq_zero_iff.mp (hwf.symm.trans hzero)
    rw [if_pos (by simpa using hzero), hnone]
    exact execFinal_eq hs rfl hzero
  · rw [if_neg (by simpa using hzero)]
    exact repeatOp_execCompress_all hs hwf hzero hW hR hu

/-- The state after CLEAR, LOADMSG, PAD and PARSE (44_top.md R172). -/
def State.parsedMessage (s : State) (cfg : Config) (m : List Byte) : State :=
  ((((((s.clear.storeMsg m).setStage .msg).storePb (padded cfg m)).setStage .padded).storeBlk
    (blocksOf (padded cfg m))).setStage .parsed)

section

variable (hm : MessageOk cfg m) (s : State)

include hm

theorem padOp_storeMsg : padOp cfg ((s.clear.storeMsg m).setStage .msg) =
    .next ((((s.clear.storeMsg m).setStage .msg).storePb (padded cfg m)).setStage .padded) :=
  padOp_eq cfg rfl (wf_setStage _ (wf_storeMsg hm.2 (wf_clear s)))

theorem execParse_storePb :
    execParse ((((s.clear.storeMsg m).setStage .msg).storePb (padded cfg m)).setStage .padded) =
      .next (s.parsedMessage cfg m) :=
  execParse_eq_of_whole rfl (wf_setStage _ (wf_storePb _ (wf_setStage _ (wf_storeMsg hm.2 (wf_clear s)))))
    (padded_length_mod cfg m)

/-- The operations of HASH before the compressor's complete, whatever the state it starts from. -/
theorem hashOp_eq_hashBlocks : hashOp cfg m s = hashBlocks (s.parsedMessage cfg m) := by
  rw [hashOp, if_pos hm, execClear, andThen_next, loadMsgOp_eq rfl hm, andThen_next, padOp_storeMsg hm, andThen_next,
    execParse_storePb hm, andThen_next]

theorem hashOp_eq : hashOp cfg m s = .next
    (((s.parsedMessage cfg m).writeH ((blocksOf (padded cfg m)).foldl compress H0)).setPhase .finalized) := by
  rw [hashOp_eq_hashBlocks hm]
  exact hashBlocks_eq rfl rfl rfl rfl rfl rfl

end

/-- HASH has a next state for a message in the domain alone, and this one. -/
theorem eq_of_hashOp_next (h : hashOp cfg m s = .next t) :
    t = ((s.parsedMessage cfg m).writeH ((blocksOf (padded cfg m)).foldl compress H0)).setPhase .finalized := by
  obtain ⟨hm, -⟩ := hashOp_next h
  rw [hashOp_eq hm] at h
  cases h
  rfl

/-- Settles O46: from the blocks of the padded message, one COMPRESS per block folds them all. -/
theorem hashPresentsDigest : Obligations.HashPresentsDigest := by
  refine ⟨fun cfg s m hcap hbits => ?_, fun s m hbits => ?_, fun cfg s m hm => if_neg (not_messageOk hm)⟩
  · refine ⟨_, hashOp_eq ⟨hcap, hbits⟩ s, digestPort_of_finalized rfl rfl, ?_⟩
    rw [← blocksOf_length]
    rfl
  · exact ⟨_, hashOp_eq (messageOk_chip hbits) s, rfl, rfl, digestPort_of_finalized rfl rfl⟩

end Sys2Proof.Machine
end

section
/-! SUPPORT. What every operation writes, and which one raises ERR: O30 and O52. -/

namespace Sys2Proof.Machine

variable {s t : State} {i : Instr}

/-- Settles O52: the next state of each operation is the state before it with the updates that operation makes. -/
theorem onlyWritersWrite : Obligations.OnlyWritersWrite := by
  intro i s t h
  cases i with
  | add32 | rotr | shr | ssigma0 | ssigma1 | lsigma0 | lsigma1 | ch | maj =>
    obtain ⟨r, rfl⟩ := exec_fn_next rfl h
    simp [formatOf]
  | pad => obtain ⟨-, -, -, rfl⟩ := padOp_next h; simp
  | parse => obtain ⟨-, -, ⟨-, rfl⟩ | ⟨-, rfl⟩⟩ := execParse_next h <;> simp
  | init => obtain ⟨-, -, rfl⟩ := execInit_next h; simp
  | sched => obtain ⟨-, _, _, -, -, -, rfl⟩ := execSched_next h; simp
  | load => obtain ⟨-, _, _, -, -, -, rfl⟩ := execLoad_next h; simp
  | round => obtain ⟨-, _, _, _, _, -, -, -, -, rfl⟩ := execRound_next h; simp
  | fold => obtain ⟨-, _, _, _, -, -, -, -, -, rfl⟩ := execFold_next h; simp
  | final => obtain ⟨-, -, -, rfl⟩ := execFinal_next h; simp
  | compress => obtain ⟨_, _, _, -, rfl⟩ := execCompress_eq_next.mp h; simp [State.afterBlock]
  | clear => cases h; simp
  | loadmsg m => obtain ⟨-, -, rfl⟩ := loadMsgOp_next h; simp
  | loadpb p => obtain ⟨-, rfl⟩ := execLoadpb_next h; simp
  | hash m => obtain rfl := eq_of_hashOp_next (cfg := Config.chip) h; simp [State.parsedMessage]

theorem err_of_exec (h : exec i s = .next t) : t.err = s.err ∨ i = .parse ∨ i = .clear ∨ ∃ m, i = .hash m := by
  obtain ⟨-, -, -, -, -, -, -, -, -, herr, -, -⟩ := onlyWritersWrite i s t h
  exact herr

/-- CLEAR and HASH leave a state with ERR at its reset value, so PARSE alone raises it. -/
theorem parse_of_err (h : exec i s = .next t) (hs : s.err = false) (ht : t.err = true) :
    i = .parse ∧ s.plen % 64 ≠ 0 := by
  obtain hsame | rfl | rfl | ⟨m, rfl⟩ := err_of_exec h
  · exact nomatch ht.symm.trans (hsame.trans hs)
  · obtain ⟨-, -, ⟨hoff, -⟩ | ⟨-, rfl⟩⟩ := execParse_next h
    · exact ⟨rfl, hoff⟩
    · exact nomatch ht.symm.trans hs
  · cases h
    exact nomatch ht
  · obtain rfl := eq_of_hashOp_next (cfg := Config.chip) h
    exact nomatch ht

theorem execParse_raises_iff (hs : s.stage = .padded) (hwf : Memory.wf s) (herr : s.err = false) :
    (∃ t, exec .parse s = .next t ∧ t.err = true) ↔ s.plen % 64 ≠ 0 := by
  constructor
  · rintro ⟨t, h, ht⟩
    exact (parse_of_err h herr ht).2
  · intro hoff
    exact ⟨_, execParse_eq_of_off hs hwf hoff, rfl⟩

/-- Settles O30. -/
theorem errCauseIsLengthAlone : Obligations.ErrCauseIsLengthAlone := by
  refine ⟨fun i s t => parse_of_err, fun s s' hs hs' hwf hwf' herr herr' hplen => ?_⟩
  rw [execParse_raises_iff hs hwf herr, execParse_raises_iff hs' hwf' herr', hplen]

end Sys2Proof.Machine
end

section
/-! SUPPORT. The table of admitted operations: where an operation is refused, that none ends in a fault, and that an
admitted one completes: O50 and O51. -/

namespace Sys2Proof.Machine

variable {s t : State} {cfg : Config} {r : Result} {f : State → Result}

/-! ## Refusals -/

theorem exists_refused_of_not_admitted {i : Instr} (hadm : admitted Config.chip i s = false) :
    ∃ e, exec i s = .refused e := by
  cases i with
  | add32 | ssigma0 | ssigma1 | lsigma0 | lsigma1 | ch | maj | clear => nomatch hadm
  | rotr n x => exact ⟨_, if_neg (of_decide_eq_false hadm)⟩
  | shr n x => exact ⟨_, if_neg (of_decide_eq_false hadm)⟩
  | pad => exact ⟨_, execPad_refused (by simpa [admitted] using hadm)⟩
  | parse => exact ⟨_, if_neg (by simpa [admitted] using hadm)⟩
  | init => exact ⟨_, if_neg (by simpa [admitted] using hadm)⟩
  | sched => exact ⟨_, execSched_refused hadm⟩
  | load => exact ⟨_, execLoad_refused hadm⟩
  | round => exact ⟨_, execRound_refused hadm⟩
  | fold => exact ⟨_, execFold_refused hadm⟩
  | final => exact ⟨_, if_neg (by simpa [admitted] using hadm)⟩
  | compress => exact ⟨_, execCompress_refused hadm⟩
  | loadmsg m =>
    by_cases hs : s.stage = .empty
    · have hm : ¬ MessageOk Config.chip m := by simpa [admitted, hs] using hadm
      exact ⟨_, (if_pos hs).trans (if_neg hm)⟩
    · exact ⟨_, loadMsgOp_refused hs⟩
  | loadpb p => exact ⟨_, execLoadpb_refused (by simpa [admitted] using hadm)⟩
  | hash m => exact ⟨_, if_neg (of_decide_eq_false hadm)⟩

/-! ## No fault -/

/-- The outcome is a next state or a refusal (60_exceptions.md R193: the block's one exception is taken as a state). -/
def NoFault (r : Result) : Prop := ∀ e, r ≠ .fault e

@[simp] theorem noFault_next (s : State) : NoFault (.next s) := nofun

@[simp] theorem noFault_refused (e : Refusal) : NoFault (.refused e) := nofun

theorem NoFault.andThen (hr : NoFault r) (hf : ∀ s, NoFault (f s)) : NoFault (andThen r f) := by
  cases r with
  | next s => exact hf s
  | refused e => exact nofun
  | fault e => exact absurd rfl (hr e)

theorem NoFault.repeatOp (hf : ∀ s, NoFault (f s)) (n : Nat) (s : State) : NoFault (repeatOp f n s) := by
  induction n generalizing s with
  | zero => exact nofun
  | succ n ih => exact (hf s).andThen ih

theorem giveWord_noFault (x : Word) (s : State) : NoFault (giveWord x s) := nofun

theorem execRotr_noFault (n : Nat) (x : Word) (s : State) : NoFault (execRotr n x s) := by
  unfold execRotr
  split <;> simp [giveWord_noFault]

theorem execShr_noFault (n : Nat) (x : Word) (s : State) : NoFault (execShr n x s) := by
  unfold execShr
  split <;> simp [giveWord_noFault]

theorem padOp_noFault (cfg : Config) (s : State) : NoFault (padOp cfg s) := by
  unfold padOp
  (repeat' split) <;> simp

theorem execParse_noFault (s : State) : NoFault (execParse s) := by
  unfold execParse
  (repeat' split) <;> simp

theorem execInit_noFault (s : State) : NoFault (execInit s) := by
  unfold execInit
  split <;> simp

theorem schedBlock_noFault (i : Nat) (s : State) : NoFault (schedBlock i s) := by
  unfold schedBlock
  split <;> simp

theorem execSched_noFault (s : State) : NoFault (execSched s) := by
  unfold execSched
  (repeat' split) <;> simp [schedBlock_noFault]

theorem execLoad_noFault (s : State) : NoFault (execLoad s) := by
  unfold execLoad
  (repeat' split) <;> simp

theorem execRound_noFault (s : State) : NoFault (execRound s) := by
  unfold execRound
  (repeat' split) <;> simp

theorem execFold_noFault (s : State) : NoFault (execFold s) := by
  unfold execFold
  (repeat' split) <;> simp

theorem execFinal_noFault (s : State) : NoFault (execFinal s) := by
  unfold execFinal
  split <;> simp

theorem compressBlock_noFault (s : State) : NoFault (compressBlock s) :=
  (((execSched_noFault s).andThen execLoad_noFault).andThen (.repeatOp execRound_noFault 64)).andThen execFold_noFault

theorem execCompress_noFault (s : State) : NoFault (execCompress s) := by
  unfold execCompress
  (repeat' split) <;> simp [compressBlock_noFault]

theorem loadMsgOp_noFault (cfg : Config) (m : List Byte) (s : State) : NoFault (loadMsgOp cfg m s) := by
  unfold loadMsgOp
  (repeat' split) <;> simp

theorem execLoadpb_noFault (p : List Byte) (s : State) : NoFault (execLoadpb p s) := by
  unfold execLoadpb
  split <;> simp

theorem hashOp_noFault (cfg : Config) (m : List Byte) (s : State) : NoFault (hashOp cfg m s) := by
  by_cases hm : MessageOk cfg m
  · rw [hashOp_eq hm]
    exact nofun
  · rw [hashOp, if_neg hm]
    exact nofun

theorem exec_noFault (i : Instr) (s : State) : NoFault (exec i s) := by
  cases i with
  | add32 | ssigma0 | ssigma1 | lsigma0 | lsigma1 | ch | maj => exact giveWord_noFault _ s
  | rotr n x => exact execRotr_noFault n x s
  | shr n x => exact execShr_noFault n x s
  | pad => exact padOp_noFault _ s
  | parse => exact execParse_noFault s
  | init => exact execInit_noFault s
  | sched => exact execSched_noFault s
  | load => exact execLoad_noFault s
  | round => exact execRound_noFault s
  | fold => exact execFold_noFault s
  | final => exact execFinal_noFault s
  | compress => exact execCompress_noFault s
  | clear => exact nofun
  | loadmsg m => exact loadMsgOp_noFault _ m s
  | loadpb p => exact execLoadpb_noFault p s
  | hash m => exact hashOp_noFault _ m s

theorem step_noFault (s : State) : NoFault (step s) := by
  unfold step
  (repeat' split)
  · exact nofun
  · exact nofun
  · exact exec_noFault _ _

/-- Settles O50: by cases on the operation, and no part of an operation ends in a fault. -/
theorem notAdmittedIsRefused : Obligations.NotAdmittedIsRefused :=
  ⟨fun _ _ => exists_refused_of_not_admitted, step_noFault⟩

/-! ## Completion -/

theorem atMicroStep_iff {ok : MicroStep → Bool} :
    atMicroStep s ok = true ↔ ∃ i, s.phase = .processing i ∧ ok s.us = true := by
  unfold atMicroStep
  split <;> simp_all

theorem atBlockStart_iff : atBlockStart s = true ↔
    s.phase = .initialized ∧ 1 ≤ s.nblk ∨ ∃ i, s.phase = .processing i ∧ s.us = .sched := by
  unfold atBlockStart
  split <;> simp_all

/-- In a state that meets the invariant, the start of a block has that block and a chaining value. -/
theorem exists_beforeBlock (hinv : StateInv s) (hs : s.stage = .parsed) (hstart : atBlockStart s = true) :
    ∃ i h b, BeforeBlock s i h b := by
  obtain ⟨⟨-, -, -, hnblk⟩, -, hphase, -⟩ := hinv
  obtain ⟨hp, hone⟩ | ⟨i, hp, hu⟩ := atBlockStart_iff.mp hstart
  · simp only [phaseInv, hp] at hphase
    obtain ⟨-, hH, -⟩ := hphase
    obtain ⟨h, hH⟩ := exists_cellsOf_of_allHold hH
    exact ⟨0, h, _, hs, .inl ⟨hp, rfl⟩, hH, hone, List.getElem?_eq_getElem (by omega)⟩
  · simp only [phaseInv, hp] at hphase
    obtain ⟨-, hH, hi, -⟩ := hphase
    obtain ⟨h, hH⟩ := exists_cellsOf_of_allHold hH
    exact ⟨i, h, _, hs, .inr ⟨hp, hu⟩, hH, hi, List.getElem?_eq_getElem (by omega)⟩

theorem execLoad_completes (hinv : StateInv s) (hadm : admitted cfg .load s = true) : ∃ t, exec .load s = .next t := by
  simp only [admitted, Bool.and_eq_true, beq_iff_eq, atMicroStep_iff] at hadm
  obtain ⟨hs, i, hp, hu⟩ := hadm
  obtain ⟨-, -, hphase, -⟩ := hinv
  simp only [phaseInv, hp] at hphase
  obtain ⟨-, hH, -⟩ := hphase
  obtain ⟨h, hH⟩ := exists_cellsOf_of_allHold hH
  exact ⟨_, execLoad_eq hs hp hu hH⟩

theorem execRound_completes (hinv : StateInv s) (hadm : admitted cfg .round s = true) :
    ∃ t, exec .round s = .next t := by
  simp only [admitted, Bool.and_eq_true, beq_iff_eq, atMicroStep_iff] at hadm
  obtain ⟨hs, i, hp, hround⟩ := hadm
  obtain ⟨k, hu⟩ : ∃ k, s.us = .round k := by
    cases hu : s.us with
    | round k => exact ⟨k, rfl⟩
    | sched | load | fold => simp [hu] at hround
  obtain ⟨-, -, hphase, -⟩ := hinv
  simp only [phaseInv, hp, hu] at hphase
  obtain ⟨-, -, -, hW, hR⟩ := hphase
  obtain ⟨w, hW⟩ := exists_cellsOf_of_allHold hW
  obtain ⟨r, hR⟩ := exists_cellsOf_of_allHold hR
  exact ⟨_, execRound_eq hs hp hu hW hR⟩

theorem execFold_completes (hinv : StateInv s) (hadm : admitted cfg .fold s = true) : ∃ t, exec .fold s = .next t := by
  simp only [admitted, Bool.and_eq_true, beq_iff_eq, atMicroStep_iff] at hadm
  obtain ⟨hs, i, hp, hu⟩ := hadm
  obtain ⟨-, -, hphase, -⟩ := hinv
  simp only [phaseInv, hp, hu] at hphase
  obtain ⟨-, hH, hi, -, hR⟩ := hphase
  obtain ⟨h, hH⟩ := exists_cellsOf_of_allHold hH
  obtain ⟨r, hR⟩ := exists_cellsOf_of_allHold hR
  exact ⟨_, execFold_eq hs hp hu hH hR hi⟩

theorem execParse_completes (hs : s.stage = .padded) (hwf : Memory.wf s) : ∃ t, exec .parse s = .next t := by
  by_cases hwhole : s.plen % 64 = 0
  · exact ⟨_, execParse_eq_of_whole hs hwf hwhole⟩
  · exact ⟨_, execParse_eq_of_off hs hwf hwhole⟩

/-- Settles O51: the invariant gives each admitted operation the words and the block it reads. -/
theorem admittedCompletes : Obligations.AdmittedCompletes := by
  intro i s hinv hadm
  cases i with
  | add32 | ssigma0 | ssigma1 | lsigma0 | lsigma1 | ch | maj | clear => exact ⟨_, rfl⟩
  | rotr n x => exact ⟨_, execRotr_eq (of_decide_eq_true hadm)⟩
  | shr n x => exact ⟨_, execShr_eq (of_decide_eq_true hadm)⟩
  | pad => exact ⟨_, padOp_eq _ (eq_of_beq hadm) hinv.1⟩
  | parse => exact execParse_completes (eq_of_beq hadm) hinv.1
  | init =>
    obtain ⟨hs, hp⟩ : s.stage = .parsed ∧ s.phase = .uninitialized := by simpa [admitted] using hadm
    exact ⟨_, execInit_eq hs hp⟩
  | sched =>
    obtain ⟨hs, hstart⟩ : s.stage = .parsed ∧ atBlockStart s = true := by simpa [admitted] using hadm
    obtain ⟨i, h, b, hbefore⟩ := exists_beforeBlock hinv hs hstart
    exact ⟨_, hbefore.execSched_eq⟩
  | load => exact execLoad_completes hinv hadm
  | round => exact execRound_completes hinv hadm
  | fold => exact execFold_completes hinv hadm
  | final =>
    obtain ⟨⟨hs, hp⟩, hzero⟩ : (s.stage = .parsed ∧ s.phase = .initialized) ∧ s.nblk = 0 := by
      simpa [admitted] using hadm
    exact ⟨_, execFinal_eq hs hp hzero⟩
  | compress =>
    obtain ⟨hs, hstart⟩ : s.stage = .parsed ∧ atBlockStart s = true := by simpa [admitted] using hadm
    obtain ⟨i, h, b, hbefore⟩ := exists_beforeBlock hinv hs hstart
    exact ⟨_, hbefore.execCompress_eq⟩
  | loadmsg m =>
    simp only [admitted, Bool.and_eq_true, beq_iff_eq, decide_eq_true_eq] at hadm
    obtain ⟨hs, hm⟩ := hadm
    exact ⟨_, loadMsgOp_eq hs hm⟩
  | loadpb p => exact ⟨_, execLoadpb_eq (eq_of_beq hadm)⟩
  | hash m => exact ⟨_, hashOp_eq (of_decide_eq_true hadm) s⟩

end Sys2Proof.Machine
end

section
/-! SUPPORT. A program issued on the port is its operations in a row: O38 and O47. -/

namespace Sys2Proof.Machine

variable {s t : State} {f g : State → Result}

/-! ## No operation reads or writes the port -/

/-- The operation does the same whatever the host has yet to issue, and leaves that as it is (log 6). -/
def PortFree (f : State → Result) : Prop :=
  ∀ (s : State) (p : List Command), f { s with port := p } = andThen (f s) fun t => .next { t with port := p }

theorem PortFree.andThen (hf : PortFree f) (hg : PortFree g) : PortFree fun s => andThen (f s) g := by
  intro s p
  simp only [hf s p]
  cases f s with
  | next t => exact hg t p
  | fault e => rfl
  | refused e => rfl

theorem PortFree.repeatOp (hf : PortFree f) (n : Nat) : PortFree (repeatOp f n) := by
  induction n with
  | zero => exact fun _ _ => rfl
  | succ n ih => exact hf.andThen ih

theorem PortFree.ite {c : State → Prop} [∀ s, Decidable (c s)] (hc : ∀ s p, c { s with port := p } ↔ c s)
    (hf : PortFree f) (hg : PortFree g) : PortFree fun s => if c s then f s else g s := by
  intro s p
  by_cases h : c s
  · simp only [h, hc, if_true]
    exact hf s p
  · simp only [h, hc, if_false]
    exact hg s p

theorem refused_portFree (e : Refusal) : PortFree fun _ => .refused e := fun _ _ => rfl

theorem giveWord_portFree (x : Word) : PortFree (giveWord x) := fun _ _ => rfl

theorem execRotr_portFree (n : Nat) (x : Word) : PortFree (execRotr n x) :=
  .ite (fun _ _ => .rfl) (giveWord_portFree _) (refused_portFree _)

theorem execShr_portFree (n : Nat) (x : Word) : PortFree (execShr n x) :=
  .ite (fun _ _ => .rfl) (giveWord_portFree _) (refused_portFree _)

theorem padOp_portFree (cfg : Config) : PortFree (padOp cfg) := by
  refine .ite (fun _ _ => .rfl) (fun s p => ?_) (refused_portFree _)
  dsimp only
  split
  · rfl
  · split <;> rfl

theorem execParse_portFree : PortFree execParse := by
  refine .ite (fun _ _ => .rfl) (fun s p => ?_) (refused_portFree _)
  dsimp only
  split
  · rfl
  · split <;> rfl

theorem execInit_portFree : PortFree execInit := .ite (fun _ _ => .rfl) (fun _ _ => rfl) (refused_portFree _)

theorem schedBlock_portFree (i : Nat) : PortFree (schedBlock i) := by
  intro s p
  have hread : State.readBlk { s with port := p } i = s.readBlk i := rfl
  simp only [schedBlock, hread]
  split <;> rfl

theorem execSched_portFree : PortFree execSched := by
  refine .ite (fun _ _ => .rfl) (fun s p => ?_) (refused_portFree _)
  dsimp only
  split
  · exact PortFree.ite (c := fun s => 1 ≤ s.nblk) (fun _ _ => .rfl) (schedBlock_portFree 0) (refused_portFree _) s p
  · exact schedBlock_portFree _ s p
  · rfl

theorem execLoad_portFree : PortFree execLoad := by
  refine .ite (fun _ _ => .rfl) (fun s p => ?_) (refused_portFree _)
  dsimp only
  split
  · split <;> rfl
  · rfl

theorem execRound_portFree : PortFree execRound := by
  refine .ite (fun _ _ => .rfl) (fun s p => ?_) (refused_portFree _)
  dsimp only
  split
  · split <;> rfl
  · rfl

theorem execFold_portFree : PortFree execFold := by
  refine .ite (fun _ _ => .rfl) (fun s p => ?_) (refused_portFree _)
  dsimp only
  split
  · split
    · split
      · rfl
      · split <;> rfl
    · rfl
    · rfl
  · rfl

theorem execFinal_portFree : PortFree execFinal := .ite (fun _ _ => .rfl) (fun _ _ => rfl) (refused_portFree _)

theorem compressBlock_portFree : PortFree compressBlock :=
  ((execSched_portFree.andThen execLoad_portFree).andThen (execRound_portFree.repeatOp 64)).andThen execFold_portFree

theorem execCompress_portFree : PortFree execCompress := by
  refine .ite (fun _ _ => .rfl) (fun s p => ?_) (refused_portFree _)
  dsimp only
  split
  · exact PortFree.ite (c := fun s => 1 ≤ s.nblk) (fun _ _ => .rfl) compressBlock_portFree (refused_portFree _) s p
  · exact compressBlock_portFree s p
  · rfl

theorem execClear_portFree : PortFree execClear := fun _ _ => rfl

theorem loadMsgOp_portFree (cfg : Config) (m : List Byte) : PortFree (loadMsgOp cfg m) :=
  .ite (fun _ _ => .rfl) (.ite (fun _ _ => .rfl) (fun _ _ => rfl) (refused_portFree _)) (refused_portFree _)

theorem execLoadpb_portFree (p : List Byte) : PortFree (execLoadpb p) :=
  .ite (fun _ _ => .rfl) (fun _ _ => rfl) (refused_portFree _)

theorem hashOp_portFree (cfg : Config) (m : List Byte) : PortFree (hashOp cfg m) := by
  intro s p
  by_cases hm : MessageOk cfg m
  · rw [hashOp_eq hm, hashOp_eq hm]
    rfl
  · rw [hashOp, hashOp, if_neg hm, if_neg hm]
    rfl

theorem exec_portFree (i : Instr) : PortFree (exec i) := by
  cases i with
  | add32 | ssigma0 | ssigma1 | lsigma0 | lsigma1 | ch | maj => exact giveWord_portFree _
  | rotr n x => exact execRotr_portFree n x
  | shr n x => exact execShr_portFree n x
  | pad => exact padOp_portFree _
  | parse => exact execParse_portFree
  | init => exact execInit_portFree
  | sched => exact execSched_portFree
  | load => exact execLoad_portFree
  | round => exact execRound_portFree
  | fold => exact execFold_portFree
  | final => exact execFinal_portFree
  | compress => exact execCompress_portFree
  | clear => exact execClear_portFree
  | loadmsg m => exact loadMsgOp_portFree _ m
  | loadpb p => exact execLoadpb_portFree p
  | hash m => exact hashOp_portFree _ m

/-! ## Operations in a row -/

/-- The operations of a list, one after another, with nothing between them (20_memory.md R49). -/
def performAll : List Instr → State → Result
  | [], s => .next s
  | i :: is, s => andThen (exec i s) (performAll is)

theorem performAll_cons (i : Instr) (is : List Instr) (s : State) :
    performAll (i :: is) s = andThen (exec i s) (performAll is) := rfl

theorem performAll_cons_of_next {i : Instr} {is : List Instr} (h : exec i s = .next t) :
    performAll (i :: is) s = performAll is t := by
  rw [performAll_cons, h, andThen_next]

theorem andThen_next_right (r : Result) : andThen r .next = r := by cases r <;> rfl

theorem performAll_singleton (i : Instr) : performAll [i] = exec i := funext fun s => andThen_next_right (exec i s)

theorem performAll_append (is js : List Instr) (s : State) :
    performAll (is ++ js) s = andThen (performAll is s) (performAll js) := by
  induction is generalizing s with
  | nil => rfl
  | cons i is ih =>
    rw [List.cons_append, performAll_cons, performAll_cons, andThen_assoc]
    exact congrArg (andThen (exec i s)) (funext ih)

theorem performAll_replicate (i : Instr) (n : Nat) : performAll (List.replicate n i) = repeatOp (exec i) n := by
  induction n with
  | zero => rfl
  | succ n ih =>
    funext s
    rw [List.replicate_succ, performAll_cons, ih, repeatOp_succ]

theorem step_encode (i : Instr) (s : State) (p : List Command) :
    step { s with port := encode i :: p } = andThen (exec i s) fun t => .next { t with port := p } := by
  rw [step_eq_exec rfl (decode_encode i)]
  exact exec_portFree i s p

section

variable {M : Host.Core} {x y : M.State} (k : Nat)

theorem run_of_next (hstep : M.step x = .next y) : M.run (k + 1) x = M.run k y := by rw [Host.Core.run, hstep]

theorem run_of_fault {e : M.Fault} (hstep : M.step x = .fault e) : M.run (k + 1) x = .fault e := by
  rw [Host.Core.run, hstep]

theorem run_of_refused {e : M.Refusal} (hstep : M.step x = .refused e) : M.run (k + 1) x = .refused e := by
  rw [Host.Core.run, hstep]

end

/-- A run takes one step and goes on from where that ends. -/
theorem run_succ (k : Nat) (s : State) :
    Host.Core.run core (k + 1) s = andThen (step s) (Host.Core.run core k) := by
  cases hstep : step s with
  | next t => exact run_of_next (M := core) k hstep
  | fault e => exact run_of_fault (M := core) k hstep
  | refused e => exact run_of_refused (M := core) k hstep

/-- Issued on the port one by one, operations end as they do in a row, and what follows them on the port is left. -/
theorem run_encode (is : List Instr) (s : State) (rest : List Command) :
    Host.Core.run core is.length { s with port := is.map encode ++ rest } =
      performAll is { s with port := rest } := by
  induction is generalizing s with
  | nil => rfl
  | cons i is ih =>
    rw [List.length_cons, run_succ, List.map_cons, List.cons_append, step_encode, performAll_cons,
      exec_portFree i s rest]
    cases exec i s with
    | next t => exact ih t
    | fault e => rfl
    | refused e => rfl

/-! ## COMPRESS and its micro-operations -/

/-- Where it is admitted, COMPRESS is its micro-operations in a row (43_compressor.md R142). -/
theorem execCompress_eq_compressBlock {cfg : Config} (hadm : admitted cfg .compress s = true) :
    exec .compress s = compressBlock s := by
  obtain ⟨hs, hstart⟩ : s.stage = .parsed ∧ atBlockStart s = true := by simpa [admitted] using hadm
  obtain ⟨hp, hone⟩ | ⟨i, hp, hu⟩ := atBlockStart_iff.mp hstart
  · simp [exec, execCompress, hs, hp, hone]
  · simp [exec, execCompress, hs, hp, hu]

theorem performAll_microOps : performAll microOps = compressBlock := by
  funext s
  rw [microOps, performAll_append, performAll_append, performAll_replicate, performAll_singleton, performAll_cons,
    performAll_singleton]
  rfl

/-- Settles O38. -/
theorem compressEqualsMicroOps : Obligations.CompressEqualsMicroOps := by
  intro s rest hadm
  have hcompress : exec .compress { s with port := rest } = compressBlock { s with port := rest } :=
    execCompress_eq_compressBlock (cfg := Config.chip) hadm
  rw [hcompress, ← performAll_microOps]
  exact run_encode microOps s rest

/-! ## HASH and its program -/

/-- Up to INIT the program does what HASH does, whatever the state it starts from (44_top.md R172). -/
theorem performAll_front {m : List Byte} (hm : MessageOk Config.chip m) (s : State) :
    performAll [.clear, .loadmsg m, .pad, .parse, .init] s =
      .next (((s.parsedMessage Config.chip m).writeH H0).setPhase .initialized) := by
  rw [performAll_cons_of_next (i := .clear) (t := s.clear) rfl,
    performAll_cons_of_next (i := .loadmsg m) (loadMsgOp_eq rfl hm),
    performAll_cons_of_next (i := .pad) (s := (s.clear.storeMsg m).setStage .msg) (padOp_storeMsg hm s),
    performAll_cons_of_next (i := .parse) (execParse_storePb hm s),
    performAll_cons_of_next (i := .init) (execInit_eq rfl rfl)]
  rfl

/-- Then there is one COMPRESS for each block of the padded message, of which there is one at least (44_top.md R172). -/
theorem performAll_program {m : List Byte} (hbits : 8 * m.length < 2 ^ 64) (s : State) :
    performAll (([.clear, .loadmsg m, .pad, .parse, .init] : List Instr) ++
      List.replicate ((m.length + 8) / 64 + 1) .compress) s = exec (.hash m) s := by
  have hm : MessageOk Config.chip m := messageOk_chip hbits
  have hnblk : (s.parsedMessage Config.chip m).nblk = (m.length + 8) / 64 + 1 :=
    (congrArg (fun p => (blocksOf p).length) (padded_of_no_skip rfl)).trans (blocksOf_appendPadding_length m)
  have hone : (s.parsedMessage Config.chip m).nblk ≠ 0 := by omega
  have hhash : exec (.hash m) s = .next (((s.parsedMessage Config.chip m).writeH
      ((blocksOf (padded Config.chip m)).foldl compress H0)).setPhase .finalized) := hashOp_eq hm s
  rw [performAll_append, performAll_front hm, andThen_next, performAll_replicate, hhash, ← hnblk]
  exact repeatOp_execCompress_all rfl rfl hone rfl rfl rfl

/-- Settles O47. -/
theorem hashEqualsItsProgram : Obligations.HashEqualsItsProgram := by
  intro s m rest hbits
  rw [← performAll_program hbits]
  have hlen : (([.clear, .loadmsg m, .pad, .parse, .init] : List Instr) ++
      List.replicate ((m.length + 8) / 64 + 1) Instr.compress).length = 5 + (m.length + 8) / 64 + 1 := by
    simp; omega
  rw [← hlen]
  exact run_encode _ s rest

end Sys2Proof.Machine
end
